-- ==== Sys2Proof/Word.lean ====
section
/-! DEFINITION. The value types of 00_scope.md rule R10 and the plainest arithmetic on them (rule R11). -/

namespace Sys2Proof

/-- A data word, a register, an instruction field: 32 bits (R6 `WORD_BITS`, R10). -/
abbrev Word := BitVec 32

/-- A timestamp or a statistics counter: 64 bits, `+c` is its addition (R6 `CTR_BITS`, R10). -/
abbrev Counter := BitVec 64

/-- A stored tag: 30 bits (R6 `TAG_BITS`, R30). -/
abbrev Tag := BitVec 30

/-- An instruction word: 128 bits (R120). -/
abbrev InstrWord := BitVec 128

/-- `WORDS_PER_BLOCK`, fixed (R6). -/
abbrev wordsPerBlock : Nat := 4

/-- `s32(w)`: the word as a two's-complement integer (R10). -/
abbrev s32 (w : Word) : Int := w.toInt

/-- `u32(w)`: the word as an unsigned integer (R10). -/
abbrev u32 (w : Word) : Nat := w.toNat

/-- `w32(n)`: the word whose unsigned value is `n mod 2^32` (R10). -/
abbrev w32 (n : Int) : Word := BitVec.ofInt 32 n

end Sys2Proof
end

