-- ==== Sys2Proof/Config.lean ====
section
/-! DEFINITION. The configuration latched at power-on (00_scope.md rules R6 and R8, 10_state.md rule R35) and the
one free value of the model. -/

namespace Sys2Proof

/-- The values fixed at power-on (R35). Line counts, latencies and the store size are naturals (R6). -/
structure Config where
  l1Lines : Nat
  l2Lines : Nat
  l3Lines : Nat
  l1Lat : Nat
  l2Lat : Nat
  l3Lat : Nat
  storeLat : Nat
  storeWords : Nat
  deriving DecidableEq, Repr

/-- `STORE_BLOCKS` (R6). -/
def Config.storeBlocks (c : Config) : Nat := c.storeWords / wordsPerBlock

/-- `REF_CONFIG` (R8), an example and not a constant of the hardware, with the store size that the conventions of
95_test_vectors.md add to it. DESIGN CHOICE, unsafe: `State.reset` takes this configuration (log 4). -/
def Config.reference : Config where
  l1Lines := 2
  l2Lines := 4
  l3Lines := 8
  l1Lat := 1
  l2Lat := 10
  l3Lat := 50
  storeLat := 100
  storeWords := 100

/-- FREE VALUE (log 14). What the host reads in status register `number` (R36) when the configuration value it shows
is too large for the register's width: R6 and R7 bound neither line counts nor latencies, and R36 fixes the widths. -/
opaque Config.wideValue (number value : Nat) : Counter

end Sys2Proof
end

