-- ==== Sys2Proof/Syntax.lean ====
section
/-! DEFINITION. The instruction set: one constructor for each row of spec/opcode_table.json, with the operand fields
that 30_encoding.md rule R124 gives a meaning. Each operand is its whole 32-bit field (R126). -/

namespace Sys2Proof

/-- An instruction (R122, R124). A `sel` operand stays a raw word, because a selector other than 1 and 2 decodes and
then raises IllegalRegisterSelector (R130, R183). Unused fields are not kept: they are ignored (R125). -/
inductive Instr where
  /-- HALT (R146). -/
  | halt
  /-- ADD (R166): two source addresses and the destination address. -/
  | add (src1 src2 dst : Word)
  /-- SUB (R167): minuend, subtrahend and destination address. -/
  | sub (src1 src2 dst : Word)
  /-- MUL (R168). -/
  | mul (src1 src2 dst : Word)
  /-- DIV (R169, R170): dividend, divisor and destination address. -/
  | div (src1 src2 dst : Word)
  /-- COPY_REG_TO_MEM (R181): register selector, destination address. -/
  | copyRegToMem (sel dst : Word)
  /-- COPY_MEM_TO_REG (R182): register selector, source address. -/
  | copyMemToReg (sel src : Word)
  /-- COPY_IMMEDIATE_TO_REG (R180): register selector, literal. -/
  | copyImmediateToReg (sel imm : Word)
  /-- JUMP (R192). -/
  | jump (target : Word)
  /-- JUMP_IF_ZERO (R193). -/
  | jumpIfZero (target : Word)
  /-- JUMP_IF_NONZERO (R194). -/
  | jumpIfNonzero (target : Word)
  /-- JUMP_IF_GT (R195). -/
  | jumpIfGt (target : Word)
  /-- JUMP_IF_LT (R196). -/
  | jumpIfLt (target : Word)
  deriving DecidableEq, Repr

/-- A program entry as a host that works with integers writes it: the source's 4-tuple (R120, R121). -/
structure SourceTuple where
  opcode : Int
  operand1 : Int
  operand2 : Int
  operand3 : Int
  deriving DecidableEq, Repr

end Sys2Proof
end

