-- ==== Sys2Proof/WellFormed.lean ====
section
/-! DEFINITION. What may be supplied: configurations (00_scope.md rule R7), program bounds (R6, R7) and integers
(30_encoding.md rule R121). -/

namespace Sys2Proof

/-- R7, first condition: every level has a line. -/
def Config.linesPositive (c : Config) : Bool := 1 ≤ c.l1Lines && 1 ≤ c.l2Lines && 1 ≤ c.l3Lines

/-- R7, second condition: line counts strictly increase. -/
def Config.linesIncrease (c : Config) : Bool := c.l1Lines < c.l2Lines && c.l2Lines < c.l3Lines

/-- R7, third condition: level latencies strictly increase. -/
def Config.latenciesIncrease (c : Config) : Bool := c.l1Lat < c.l2Lat && c.l2Lat < c.l3Lat

/-- R7, fourth condition: `STORE_WORDS` is a positive multiple of 4 and at most 2^31. -/
def Config.storeFits (c : Config) : Bool :=
  0 < c.storeWords && c.storeWords % wordsPerBlock == 0 && c.storeWords ≤ 2 ^ 31

/-- The conditions of R7 on the values latched at power-on. -/
def Config.wellFormed (c : Config) : Bool :=
  c.linesPositive && c.linesIncrease && c.latenciesIncrease && c.storeFits

/-- R7, fifth condition: `PROG_LEN` is at most 2^31 - 1. -/
def progLenFits (n : Nat) : Bool := n ≤ 2 ^ 31 - 1

/-- An integer the host may supply as a word (R121, 92_eei_decisions.md D2). -/
def fitsWord (n : Int) : Bool := -2 ^ 31 ≤ n && n ≤ 2 ^ 31 - 1

/-- A source tuple the host may supply: each of its integers fits a word (R121). -/
def SourceTuple.wellFormed (t : SourceTuple) : Bool :=
  fitsWord t.opcode && fitsWord t.operand1 && fitsWord t.operand2 && fitsWord t.operand3

/-- Every instruction is well formed: each operand is a whole 32-bit field, and R126 admits every value of it.
A selector other than 1 and 2, an address outside the store and a target outside the program are not ill formed:
the machine gives each its behaviour (R61, R130, R191). -/
def Instr.wellFormed : Instr → Bool
  | .halt => true
  | .add _ _ _ => true
  | .sub _ _ _ => true
  | .mul _ _ _ => true
  | .div _ _ _ => true
  | .copyRegToMem _ _ => true
  | .copyMemToReg _ _ => true
  | .copyImmediateToReg _ _ => true
  | .jump _ => true
  | .jumpIfZero _ => true
  | .jumpIfNonzero _ => true
  | .jumpIfGt _ => true
  | .jumpIfLt _ => true

end Sys2Proof
end

