-- ==== Sys2Proof/Decode.lean ====
section
/-! DEFINITION. Reading an instruction word and writing one (30_encoding.md rules R120 to R127, 40_dispatch.md
rule R143). -/

namespace Sys2Proof

/-- `instr[31:0]` (R121). -/
def opcodeField (w : InstrWord) : Word := w.extractLsb' 0 32

/-- `instr[63:32]` (R121). -/
def op1Field (w : InstrWord) : Word := w.extractLsb' 32 32

/-- `instr[95:64]` (R121). -/
def op2Field (w : InstrWord) : Word := w.extractLsb' 64 32

/-- `instr[127:96]` (R121). -/
def op3Field (w : InstrWord) : Word := w.extractLsb' 96 32

/-- The word with these four fields (R121). -/
def joinFields (opcode op1 op2 op3 : Word) : InstrWord := op3 ++ op2 ++ op1 ++ opcode

/-- Why a word is no instruction. -/
inductive DecodeError where
  /-- The opcode field is 13 or more (R123, R143). -/
  | illegalOpcode (opcode : Word)
  deriving DecidableEq, Repr

/-- The decoder: the opcode field alone selects the instruction, by its unsigned value (R122, R143). Unused operand
fields are not read (R125). -/
def decode (w : InstrWord) : Except DecodeError Instr :=
  match u32 (opcodeField w) with
  | 0 => .ok .halt
  | 1 => .ok (.add (op1Field w) (op2Field w) (op3Field w))
  | 2 => .ok (.sub (op1Field w) (op2Field w) (op3Field w))
  | 3 => .ok (.mul (op1Field w) (op2Field w) (op3Field w))
  | 4 => .ok (.div (op1Field w) (op2Field w) (op3Field w))
  | 5 => .ok (.copyRegToMem (op1Field w) (op2Field w))
  | 6 => .ok (.copyMemToReg (op1Field w) (op2Field w))
  | 7 => .ok (.copyImmediateToReg (op1Field w) (op2Field w))
  | 8 => .ok (.jump (op1Field w))
  | 9 => .ok (.jumpIfZero (op1Field w))
  | 10 => .ok (.jumpIfNonzero (op1Field w))
  | 11 => .ok (.jumpIfGt (op1Field w))
  | 12 => .ok (.jumpIfLt (op1Field w))
  | _ => .error (.illegalOpcode (opcodeField w))

/-- The opcode number of R122. -/
def opcodeOf : Instr → Word
  | .halt => 0
  | .add _ _ _ => 1
  | .sub _ _ _ => 2
  | .mul _ _ _ => 3
  | .div _ _ _ => 4
  | .copyRegToMem _ _ => 5
  | .copyMemToReg _ _ => 6
  | .copyImmediateToReg _ _ => 7
  | .jump _ => 8
  | .jumpIfZero _ => 9
  | .jumpIfNonzero _ => 10
  | .jumpIfGt _ => 11
  | .jumpIfLt _ => 12

/-- The three operand fields of R124, an unused one as zero (R125). -/
def operandsOf : Instr → Word × Word × Word
  | .halt => (0, 0, 0)
  | .add a b d => (a, b, d)
  | .sub a b d => (a, b, d)
  | .mul a b d => (a, b, d)
  | .div a b d => (a, b, d)
  | .copyRegToMem r d => (r, d, 0)
  | .copyMemToReg r a => (r, a, 0)
  | .copyImmediateToReg r n => (r, n, 0)
  | .jump p => (p, 0, 0)
  | .jumpIfZero p => (p, 0, 0)
  | .jumpIfNonzero p => (p, 0, 0)
  | .jumpIfGt p => (p, 0, 0)
  | .jumpIfLt p => (p, 0, 0)

/-- The encoder: the word of an instruction, unused fields zero (R121, R122, R124, R125). -/
def encode (i : Instr) : InstrWord :=
  joinFields (opcodeOf i) (operandsOf i).1 (operandsOf i).2.1 (operandsOf i).2.2

/-- The bits of an instruction word that an instruction of this kind reads: its opcode and its used operand fields
(R124, R125). -/
def usedMask : Instr → InstrWord
  | .halt => 0x000000000000000000000000FFFFFFFF
  | .add _ _ _ => 0xFFFFFFFFFFFFFFFFFFFFFFFFFFFFFFFF
  | .sub _ _ _ => 0xFFFFFFFFFFFFFFFFFFFFFFFFFFFFFFFF
  | .mul _ _ _ => 0xFFFFFFFFFFFFFFFFFFFFFFFFFFFFFFFF
  | .div _ _ _ => 0xFFFFFFFFFFFFFFFFFFFFFFFFFFFFFFFF
  | .copyRegToMem _ _ => 0x00000000FFFFFFFFFFFFFFFFFFFFFFFF
  | .copyMemToReg _ _ => 0x00000000FFFFFFFFFFFFFFFFFFFFFFFF
  | .copyImmediateToReg _ _ => 0x00000000FFFFFFFFFFFFFFFFFFFFFFFF
  | .jump _ => 0x0000000000000000FFFFFFFFFFFFFFFF
  | .jumpIfZero _ => 0x0000000000000000FFFFFFFFFFFFFFFF
  | .jumpIfNonzero _ => 0x0000000000000000FFFFFFFFFFFFFFFF
  | .jumpIfGt _ => 0x0000000000000000FFFFFFFFFFFFFFFF
  | .jumpIfLt _ => 0x0000000000000000FFFFFFFFFFFFFFFF

/-- The word of a source tuple, each integer as its 32-bit pattern; none when an integer is out of range (R121). -/
def SourceTuple.word? (t : SourceTuple) : Option InstrWord :=
  if t.wellFormed then
    some (joinFields (w32 t.opcode) (w32 t.operand1) (w32 t.operand2) (w32 t.operand3))
  else none

/-- The instruction word whose low `nbits` bits are those of `w` and whose other bits are zero, numbered as
spec/opcode_table.json numbers them: bit 0 is the least significant bit (R9, R121). -/
def tableWord (nbits w : Nat) : InstrWord := BitVec.ofNat 128 (w % 2 ^ nbits)

/-- The instruction the decoder reads from the word with these bits. -/
def decodeTableWord (nbits w : Nat) : Option Instr :=
  match decode (tableWord nbits w) with
  | .ok i => some i
  | .error _ => none

end Sys2Proof
end

