-- ==== Sys2Proof/Machine/State.lean ====
section
/-! DEFINITION. Every piece of state the spec gives the machine (10_state.md), as plain data, its value after a
power-on reset (70_reset_and_hazards.md rule R230), and the reasons a step of the model stops. -/

namespace Sys2Proof.Machine

/-- `fsm_state` (R26). Values 5 to 7 of its three bits are never produced, so they are no constructors. -/
inductive FsmState where
  | idle
  | run
  | halted
  | bound
  | faulted
  deriving DecidableEq, Repr

/-- The exception causes of 60_exceptions.md rule R200. DivisionByZero is a warning, the others are hard stops. -/
inductive Cause where
  | outOfBounds
  | divisionByZero
  | illegalOpcode
  | illegalRegisterSelector
  deriving DecidableEq, Repr

/-- An event emitted to the host (R149, R202, R205, R210). -/
inductive Event where
  /-- A HALT was executed (R149). -/
  | done
  /-- The bound check ended the run (R149). -/
  | bound
  /-- `warn(cause, pc)` (R202). -/
  | warn (cause : Cause) (pc : Word)
  /-- `fault(cause, info)` (R205). -/
  | fault (cause : Cause) (info : Word)
  deriving DecidableEq, Repr

/-- The fault record (R28). -/
structure FaultRecord where
  cause : Word
  pc : Word
  info : Word
  deriving DecidableEq, Repr

/-- A block: exactly four words (20_memory.md rule R63). -/
structure Block where
  w0 : Word
  w1 : Word
  w2 : Word
  w3 : Word
  deriving DecidableEq, Repr

/-- A cache line: its fields of the tag array, the data array and the LRU unit (R30 to R32). -/
structure Line where
  valid : Bool
  tag : Tag
  data : Block
  lastUsed : Counter
  deriving DecidableEq, Repr

/-- One cache level: its lines in index order and its two counters (R30 to R33). -/
structure Level where
  lines : List Line
  hits : Counter
  misses : Counter
  deriving DecidableEq, Repr

/-- The arbiter's counters (R34). -/
structure Statistics where
  globalTime : Counter
  totalAccesses : Counter
  totalHits : Counter
  totalMisses : Counter
  totalTime : Counter
  deriving DecidableEq, Repr

/-- One cell of the block store: a word address and the word there. The spec has no byte view (R66; log 2). -/
abbrev StoreCell := Nat × Word

/-- The block store (R37): the cells that differ from what an unlisted address reads as, addresses strictly rising. -/
abbrev Memory := List StoreCell

/-- The memory side of the block: the arbiter's counters, the three levels and the store (R30 to R34, R37). -/
structure Hierarchy where
  stats : Statistics
  l1 : Level
  l2 : Level
  l3 : Level
  store : Memory
  deriving DecidableEq, Repr

/-- The whole state of the block. -/
structure State where
  /-- The configuration latched at power-on (R35). -/
  cfg : Config
  /-- `PROGRAM`, latched at run start (R35, R38). -/
  program : List InstrWord
  /-- `PROG_LEN`, latched at run start (R35). -/
  progLen : Nat
  /-- `PC` (R24). -/
  pc : Word
  /-- `IR` (R23). -/
  ir : Word
  /-- `AC` (R21). -/
  ac : Word
  /-- `R1` (R22). -/
  r1 : Word
  /-- `R2` (R22). -/
  r2 : Word
  /-- `fsm_state` (R26). -/
  fsm : FsmState
  /-- `STATUS.DIVZ`, sticky (R27). The other fields of `STATUS` are computed from `fsm`. -/
  divz : Bool
  /-- `DIVZ_COUNT` (R29). -/
  divzCount : Counter
  /-- `FAULT_CAUSE`, `FAULT_PC`, `FAULT_INFO` (R28). -/
  fault : FaultRecord
  /-- The caches, the arbiter's counters and the store. -/
  mem : Hierarchy
  /-- The events emitted since power-on, oldest first. The MODEL's record of an output (R210; log 9). -/
  events : List Event
  deriving DecidableEq, Repr

/-- Why a step answers no next state. The exceptions of the spec are no constructors: a step takes them (R205). -/
inductive Fault where
  /-- Raised by the step in IDLE, HALTED, BOUND and FAULTED, in which no step is taken (R26, R140, R147). Safe: the
  model stops where the block takes no step (log 7). -/
  | notRunning (state : FsmState)
  /-- Raised by the step when the bound check passes and `PROGRAM` holds no such entry. Safe: `PROGRAM` has at least
  `PROG_LEN` entries after every accepted run start, so no run reaches it (R6, R38; log 8). -/
  | programEntryMissing (index : Nat)
  deriving DecidableEq, Repr

/-- Why a request is refused. All but the first are raised by the host's requests (R217), never by a step. -/
inductive Refusal where
  /-- Raised by `exec` for an instruction that has no meaning yet. Safe: nothing is claimed of it. -/
  | notModelled (mnemonic : String)
  /-- Raised by POWER_ON_RESET: the configuration breaks R7. Safe: the spec refuses it. -/
  | configurationIllFormed
  /-- Raised by POWER_ON_RESET: the host's words are not exactly `STORE_WORDS` many. Safe (log 17). -/
  | storeInitWrongSize
  /-- Raised when the host supplies an integer outside the word range (R121, D2). Safe: the spec refuses it. -/
  | integerOutOfRange
  /-- Raised by RUN_START in RUN and FAULTED (R231). Safe: the spec refuses it. -/
  | runStartNotAllowed (state : FsmState)
  /-- Raised by RUN_START: `PROG_LEN` is over 2^31 - 1 (R7). Safe: the spec refuses it. -/
  | progLenOutOfRange
  /-- Raised by RUN_START: `PROGRAM` has fewer than `PROG_LEN` entries (R6, R38). Safe (log 8). -/
  | programTooShort
  /-- Raised by LINE_STATE for a line that does not exist (R217). Safe: the spec refuses it. -/
  | noSuchLine
  /-- Raised by STORE_WORD for an address outside the store (R217). Safe: the spec refuses it. -/
  | noSuchWord
  deriving DecidableEq, Repr

/-- A block of zeros. -/
def Block.zero : Block := ⟨0, 0, 0, 0⟩

/-- A line after a power-on reset (R30 to R32, R230). -/
def Line.empty : Line := ⟨false, 0, Block.zero, 0⟩

/-- A level of `n` lines after a power-on reset (R230). -/
def Level.empty (n : Nat) : Level := ⟨List.replicate n Line.empty, 0, 0⟩

/-- The arbiter's counters after a power-on reset (R34, R230). -/
def Statistics.zero : Statistics := ⟨0, 0, 0, 0, 0⟩

/-- No fault recorded (R28). -/
def FaultRecord.none : FaultRecord := ⟨0, 0, 0⟩

/-- The state a power-on reset leaves, for a configuration and an initial store (R230). The program is empty and its
bound is 0 until the first run start: DESIGN CHOICE (log 5). -/
def State.poweredOn (c : Config) (store : Memory) : State where
  cfg := c
  program := []
  progLen := 0
  pc := 0
  ir := 0
  ac := 0
  r1 := 0
  r2 := 0
  fsm := .idle
  divz := false
  divzCount := 0
  fault := FaultRecord.none
  mem :=
    { stats := Statistics.zero
      l1 := Level.empty c.l1Lines
      l2 := Level.empty c.l2Lines
      l3 := Level.empty c.l3Lines
      store := store }
  events := []

/-- The machine right after a power-on reset (R230), with `REF_CONFIG` (R8; log 4) and a zero-initialised store
(R37; log 3). -/
def State.reset : State := State.poweredOn Config.reference []

end Sys2Proof.Machine
end

