-- ==== Sys2Proof/Machine/Alu.lean ====
section
/-! DEFINITION. The alu (41_arithmetic.md rules R160 to R164): exact integer results, narrowed to a word. -/

namespace Sys2Proof.Machine

/-- The alu's operations (R160). -/
inductive AluOp where
  | add
  | sub
  | mul
  | div
  deriving DecidableEq, Repr

/-- The alu's outputs (R160). -/
structure AluResult where
  result : Word
  divz : Bool
  deriving DecidableEq, Repr

/-- The DIV law: a zero divisor sets `divz`, `-2^31 / -1` wraps, every other quotient is rounded toward zero (R164). -/
def aluDiv (a b : Word) : AluResult :=
  if s32 b = 0 then ⟨0, true⟩
  else if s32 a = -2 ^ 31 ∧ s32 b = -1 then ⟨0x80000000, false⟩
  else ⟨w32 ((s32 a).tdiv (s32 b)), false⟩

/-- The alu: ADD (R161), SUB (R162) and MUL (R163) wrap modulo 2^32, DIV follows R164. -/
def alu (op : AluOp) (a b : Word) : AluResult :=
  match op with
  | .add => ⟨w32 (s32 a + s32 b), false⟩
  | .sub => ⟨w32 (s32 a - s32 b), false⟩
  | .mul => ⟨w32 (s32 a * s32 b), false⟩
  | .div => aluDiv a b

end Sys2Proof.Machine
end

