-- ==== Sys2Proof/Machine/Store.lean ====
section
/-! DEFINITION. The block store and its blocks (10_state.md rule R37, 20_memory.md rules R62 to R65). -/

namespace Sys2Proof.Machine

/-- What an address that the store does not list reads as: the zero-initialised store of R37 (log 3). -/
def Memory.unlisted : Word := 0

/-- The word at a word address. -/
def Memory.read : Memory → Nat → Word
  | [], _ => Memory.unlisted
  | (b, w) :: m, a => if a = b then w else Memory.read m a

/-- A cell in front of the others, left out when an unlisted address reads the same. -/
def Memory.cons (a : Nat) (v : Word) (m : Memory) : Memory :=
  if v = Memory.unlisted then m else (a, v) :: m

/-- Set one word, keeping the canonical form. -/
def Memory.write : Memory → Nat → Word → Memory
  | [], a, v => Memory.cons a v []
  | (b, w) :: m, a, v =>
    if a < b then Memory.cons a v ((b, w) :: m)
    else if a = b then Memory.cons a v m
    else (b, w) :: Memory.write m a v

/-- The canonical form: addresses strictly rising, no cell equal to what an unlisted address reads as. -/
abbrev Memory.wf (m : Memory) : Prop :=
  m.Pairwise (fun x y => x.1 < y.1) ∧ ∀ x ∈ m, x.2 ≠ Memory.unlisted

/-- The store that holds these words from address `a` on. -/
def Memory.ofWords : Nat → List Word → Memory
  | _, [] => []
  | a, v :: vs => Memory.cons a v (Memory.ofWords (a + 1) vs)

/-- `block_index` of a valid word address (R62). -/
def blockIndex (a : Nat) : Nat := a / wordsPerBlock

/-- `word_offset` of a valid word address (R62). -/
def wordOffset (a : Nat) : Nat := a % wordsPerBlock

/-- `blk[k]` for k in 0..3 (R63). -/
def Block.get (blk : Block) : Nat → Word
  | 0 => blk.w0
  | 1 => blk.w1
  | 2 => blk.w2
  | _ => blk.w3

/-- `blk[k] <- v` for k in 0..3 (R63). -/
def Block.set (blk : Block) (k : Nat) (v : Word) : Block :=
  match k with
  | 0 => { blk with w0 := v }
  | 1 => { blk with w1 := v }
  | 2 => { blk with w2 := v }
  | _ => { blk with w3 := v }

/-- Block `b` of the store: words `4b` to `4b + 3` (R37, R63). -/
def Memory.block (m : Memory) (b : Nat) : Block :=
  ⟨m.read (wordsPerBlock * b), m.read (wordsPerBlock * b + 1), m.read (wordsPerBlock * b + 2),
    m.read (wordsPerBlock * b + 3)⟩

/-- The store with block `b` replaced. -/
def Memory.setBlock (m : Memory) (b : Nat) (blk : Block) : Memory :=
  (((m.write (wordsPerBlock * b) blk.w0).write (wordsPerBlock * b + 1) blk.w1).write
    (wordsPerBlock * b + 2) blk.w2).write (wordsPerBlock * b + 3) blk.w3

/-- `StoreReadWord(a)`; none is OutOfBounds (R64). No path calls it (R65). -/
def storeReadWord (c : Config) (m : Memory) (a : Nat) : Option Word :=
  if a < c.storeWords then some (m.read a) else none

/-- `StoreWriteWord(a, v)`; none is OutOfBounds (R64). -/
def storeWriteWord (c : Config) (m : Memory) (a : Nat) (v : Word) : Option Memory :=
  if a < c.storeWords then some (m.write a v) else none

/-- `StoreReadBlock(b)`; none is OutOfBounds (R64). -/
def storeReadBlock (c : Config) (m : Memory) (b : Nat) : Option Block :=
  if b < c.storeBlocks then some (m.block b) else none

/-- `StoreWriteBlock(b, blk)`; none is OutOfBounds (R64). No path calls it (R65). -/
def storeWriteBlock (c : Config) (m : Memory) (b : Nat) (blk : Block) : Option Memory :=
  if b < c.storeBlocks then some (m.setBlock b blk) else none

end Sys2Proof.Machine
end

