-- ==== Sys2Proof/Machine/Cache.lean ====
section
/-! DEFINITION. The four units of one cache level: search, hit and miss counting, LRU, line fill (20_memory.md
rules R71 to R77). -/

namespace Sys2Proof.Machine

/-- The tag of a block index: its 30 bits (R30, R62). -/
def tagOf (b : Nat) : Tag := BitVec.ofNat 30 b

/-- A valid line whose tag is the block's (R71). -/
def Line.holds (b : Nat) (l : Line) : Bool := l.valid && l.tag == tagOf b

/-- The scan of `Probe(L, b)`: the first line, in index order, that holds the block (R71). -/
def Level.find (c : Level) (b : Nat) : Option Nat := c.lines.findIdx? (Line.holds b)

/-- The level has the block. -/
def Level.resident (c : Level) (b : Nat) : Bool := c.lines.any (Line.holds b)

/-- The counter a probe adds to: `hits` on a hit, `misses` on a miss (R71); no line changes (R72). -/
def Level.count (c : Level) : Option Nat → Level
  | some _ => { c with hits := c.hits + 1 }
  | none => { c with misses := c.misses + 1 }

/-- `Probe(L, b)`: `some i` is HIT(i), `none` is MISS (R71). -/
def Level.probe (c : Level) (b : Nat) : Option Nat × Level := (c.find b, c.count (c.find b))

/-- Change line `i`. -/
def Level.modifyLine (c : Level) (i : Nat) (f : Line → Line) : Level := { c with lines := c.lines.modify i f }

/-- `Touch(L, i, t)` (R73). -/
def Level.touch (c : Level) (i : Nat) (t : Counter) : Level := c.modifyLine i fun l => { l with lastUsed := t }

/-- The least timestamp of the lines, compared as unsigned numbers (R74); 0 when there is no line. -/
def leastUsed (ls : List Line) : Nat := ((ls.map fun l => l.lastUsed.toNat).min?).getD 0

/-- `Victim(L)`: the first invalid line, else the first line with the least timestamp (R74). -/
def Level.victim (c : Level) : Nat :=
  match c.lines.findIdx? (fun l => !l.valid) with
  | some i => i
  | none => c.lines.findIdx fun l => l.lastUsed.toNat == leastUsed c.lines

/-- `Install(L, b, blk, t)`: fill the victim line; counters are unchanged and nothing is written back (R75, R92). -/
def Level.install (c : Level) (b : Nat) (blk : Block) (t : Counter) : Level :=
  c.modifyLine c.victim fun _ => { valid := true, tag := tagOf b, data := blk, lastUsed := t }

/-- `WriteInPlace(L, i, k, v, t)` (R76). -/
def Level.writeInPlace (c : Level) (i k : Nat) (v : Word) (t : Counter) : Level :=
  c.modifyLine i fun l => { l with data := l.data.set k v, lastUsed := t }

/-- `data[L][i][0..3]`: a copy of the block in line `i`. -/
def Level.dataAt (c : Level) (i : Nat) : Block := (c.lines[i]?.map Line.data).getD Block.zero

/-- The per-level statistics reset (R77). -/
def Level.resetStatistics (c : Level) : Level := { c with hits := 0, misses := 0 }

end Sys2Proof.Machine
end

