-- ==== Sys2Proof/Machine/Arbiter.lean ====
section
/-! DEFINITION. The inclusive_write_through_arbiter: the read path, the write path and the statistics reset
(20_memory.md rules R79 to R93). An access here has passed the address check of rule R78, so its word address is a
natural number below `STORE_WORDS` and no store primitive can fail (R64). -/

namespace Sys2Proof.Machine

/-- Step 1 of both paths: the clock and `total_accesses` grow by 1 (R79, R85). -/
def Hierarchy.tick (h : Hierarchy) : Hierarchy :=
  { h with
    stats :=
      { h.stats with
        globalTime := h.stats.globalTime + 1
        totalAccesses := h.stats.totalAccesses + 1 } }

/-- `total_hits` grows by 1 (R80 to R82). -/
def Hierarchy.countHit (h : Hierarchy) : Hierarchy :=
  { h with stats := { h.stats with totalHits := h.stats.totalHits + 1 } }

/-- `total_misses` grows by 1 (R83). -/
def Hierarchy.countMiss (h : Hierarchy) : Hierarchy :=
  { h with stats := { h.stats with totalMisses := h.stats.totalMisses + 1 } }

/-- `total_time` grows by this many simulated cycles, modulo 2^64 (R84, R90). -/
def Hierarchy.charge (cycles : Nat) (h : Hierarchy) : Hierarchy :=
  { h with stats := { h.stats with totalTime := h.stats.totalTime + BitVec.ofNat 64 cycles } }

/-- The read path after the address check: an L1 hit (R80), an L2 hit (R81), an L3 hit (R82), a full miss (R83).
Levels that are not probed do not change (R84). -/
def Hierarchy.read (c : Config) (a : Nat) (h₀ : Hierarchy) : Word × Hierarchy :=
  let h := h₀.tick
  let t := h.stats.globalTime
  let b := blockIndex a
  let k := wordOffset a
  let p1 := h.l1.probe b
  match p1.1 with
  | some i =>
    ((p1.2.dataAt i).get k, ({ h with l1 := p1.2.touch i t }.countHit).charge c.l1Lat)
  | none =>
    let p2 := h.l2.probe b
    match p2.1 with
    | some j =>
      let blk := p2.2.dataAt j
      (blk.get k,
        ({ h with
            l1 := p1.2.install b blk t
            l2 := p2.2.touch j t }.countHit).charge (c.l1Lat + c.l2Lat))
    | none =>
      let p3 := h.l3.probe b
      match p3.1 with
      | some m =>
        let blk := p3.2.dataAt m
        (blk.get k,
          ({ h with
              l1 := p1.2.install b blk t
              l2 := p2.2.install b blk t
              l3 := p3.2.touch m t }.countHit).charge (c.l1Lat + c.l2Lat + c.l3Lat))
      | none =>
        let blk := h.store.block b
        (blk.get k,
          ({ h with
              l1 := p1.2.install b blk t
              l2 := p2.2.install b blk t
              l3 := p3.2.install b blk t }.countMiss).charge (c.l1Lat + c.l2Lat + c.l3Lat + c.storeLat))

/-- Step 2 of the write path, L1 with write-allocate: on a miss the store's block, with the word written, is installed
(R86). -/
def Level.writeAllocate (c : Level) (store : Memory) (b k : Nat) (v : Word) (t : Counter) : Level :=
  let p := c.probe b
  match p.1 with
  | some i => p.2.writeInPlace i k v t
  | none => p.2.install b ((store.block b).set k v) t

/-- Steps 3 and 4 of the write path, L2 and L3 without allocate (R87, R88). -/
def Level.writeNoAllocate (c : Level) (b k : Nat) (v : Word) (t : Counter) : Level :=
  let p := c.probe b
  match p.1 with
  | some i => p.2.writeInPlace i k v t
  | none => p.2

/-- The write path after the address check (R85 to R91): all three levels are probed, the store is always written, the
full latency is always charged, `total_hits` and `total_misses` do not change. -/
def Hierarchy.write (c : Config) (a : Nat) (v : Word) (h₀ : Hierarchy) : Hierarchy :=
  let h := h₀.tick
  let t := h.stats.globalTime
  let b := blockIndex a
  let k := wordOffset a
  { h with
    l1 := h.l1.writeAllocate h.store b k v t
    l2 := h.l2.writeNoAllocate b k v t
    l3 := h.l3.writeNoAllocate b k v t
    store := h.store.write a v }.charge (c.l1Lat + c.l2Lat + c.l3Lat + c.storeLat)

/-- `StatsReset()`: the arbiter's and every level's counters become 0, the lines and the store stay (R93). -/
def Hierarchy.resetStatistics (h : Hierarchy) : Hierarchy :=
  { h with
    stats := ⟨0, 0, 0, 0, 0⟩
    l1 := h.l1.resetStatistics
    l2 := h.l2.resetStatistics
    l3 := h.l3.resetStatistics }

end Sys2Proof.Machine
end

