-- ==== Sys2Proof/Machine/Flags.lean ====
section
/-! DEFINITION. The block has no flags (10_state.md rule R40). What stands in their place: the tests the conditional
jumps make on AC (43_control_transfer.md rule R190), and the STATUS word the host reads (10_state.md rule R27). -/

namespace Sys2Proof.Machine

/-- Condition ZERO (R190). -/
def acZero (ac : Word) : Bool := s32 ac == 0

/-- Condition NONZERO (R190). -/
def acNonzero (ac : Word) : Bool := s32 ac != 0

/-- Condition GT, signed (R190). -/
def acPositive (ac : Word) : Bool := s32 ac > 0

/-- Condition LT, signed (R190). -/
def acNegative (ac : Word) : Bool := s32 ac < 0

/-- The three bits of `fsm_state` (R26). -/
def FsmState.code : FsmState → BitVec 3
  | .idle => 0
  | .run => 1
  | .halted => 2
  | .bound => 3
  | .faulted => 4

/-- `STATUS.DONE`: 1 exactly in HALTED and BOUND (R27). -/
def FsmState.done : FsmState → Bool
  | .idle => false
  | .run => false
  | .halted => true
  | .bound => true
  | .faulted => false

/-- `STATUS`: STATE in bits 2:0, DIVZ in bit 3, DONE in bit 4, bits 31:5 zero (R27). -/
def State.status (s : State) : Word :=
  (0 : BitVec 27) ++ BitVec.ofBool s.fsm.done ++ BitVec.ofBool s.divz ++ s.fsm.code

end Sys2Proof.Machine
end

