-- ==== Sys2Proof/Machine/Operands.lean ====
section
/-! DEFINITION. The operand forms (30_encoding.md rules R124, R126, R130; 20_memory.md rule R61). An immediate and a
jump target are used as they stand and need no definition. -/

namespace Sys2Proof.Machine

/-- The word address an `addr` operand names, when it names one: `0 <= s32(a) < STORE_WORDS` (R61). -/
def wordAddress (c : Config) (a : Word) : Option Nat :=
  if 0 ≤ s32 a ∧ s32 a < c.storeWords then some (s32 a).toNat else none

/-- The general operand registers (R22). -/
inductive Reg where
  | r1
  | r2
  deriving DecidableEq, Repr

/-- The register a `sel` operand names: R1 for 1, R2 for 2, none for any other value (R130). -/
def selectReg (sel : Word) : Option Reg :=
  if s32 sel = 1 then some .r1 else if s32 sel = 2 then some .r2 else none

end Sys2Proof.Machine
end

