-- ==== Sys2Proof/Machine/Ops.lean ====
section
/-! DEFINITION. The named operations the meanings are written with: register writes, the PC update, memory accesses
through the arbiter, taking an exception and the division warning. There is no return from an exception: no handler is
entered (60_exceptions.md rules R205, R209). -/

namespace Sys2Proof.Machine

/-- `AC <- v` (R21). -/
def setAc (v : Word) (s : State) : State := { s with ac := v }

/-- `IR <- v`, at a fetch (R142). -/
def setIr (v : Word) (s : State) : State := { s with ir := v }

/-- `PC <- v` (R24). -/
def setPc (v : Word) (s : State) : State := { s with pc := v }

/-- `fsm_state <- f` (R26). -/
def setFsm (f : FsmState) (s : State) : State := { s with fsm := f }

/-- The memory side after an access. -/
def setMem (h : Hierarchy) (s : State) : State := { s with mem := h }

/-- `R[s]` (R12). -/
def getReg (r : Reg) (s : State) : Word :=
  match r with
  | .r1 => s.r1
  | .r2 => s.r2

/-- `R[s] <- v` (R12). -/
def setReg (r : Reg) (v : Word) (s : State) : State :=
  match r with
  | .r1 => { s with r1 := v }
  | .r2 => { s with r2 := v }

/-- Emit an event to the host: reported at once and in order (R210). -/
def emit (e : Event) (s : State) : State := { s with events := s.events ++ [e] }

/-- The outcome ADVANCE of a step: `PC <- PC +w 1` (R145). -/
def advance (s : State) : State := setPc (s.pc + 1) s

/-- `Redirect(op1)`: `PC <- op1 -w 1`; the ADVANCE that follows leaves `PC == op1` (R191). -/
def redirect (target : Word) (s : State) : State := setPc (target - 1) s

/-- The cause code of R200. -/
def Cause.code : Cause → Word
  | .outOfBounds => 1
  | .divisionByZero => 2
  | .illegalOpcode => 3
  | .illegalRegisterSelector => 4

/-- Fault entry, `raise E(info)`: the fault record, FAULTED, the event; PC stays on the faulting instruction and nothing
is undone (R205, R206). -/
def raise (e : Cause) (info : Word) (s : State) : State :=
  emit (.fault e info)
    { s with
      fault := { cause := e.code, pc := s.pc, info := info }
      fsm := .faulted }

/-- `warn DivisionByZero(PC)`: the sticky bit, the count and the event; the machine goes on (R202). -/
def warnDivisionByZero (s : State) : State :=
  emit (.warn .divisionByZero s.pc)
    { s with
      divz := true
      divzCount := s.divzCount + 1 }

/-- `MemRead(a, 1)`: the word and the state after the access; none when the address check of R78 raises OutOfBounds,
before anything changes (R78 to R84). -/
def memRead (a : Word) (s : State) : Option (Word × State) :=
  match wordAddress s.cfg a with
  | none => none
  | some n => some ((s.mem.read s.cfg n).1, setMem (s.mem.read s.cfg n).2 s)

/-- `MemWrite(a, 1, v)`: the state after the access; none when the address check of R78 raises OutOfBounds, before
anything changes (R78, R85 to R91). -/
def memWrite (a v : Word) (s : State) : Option State :=
  match wordAddress s.cfg a with
  | none => none
  | some n => some (setMem (s.mem.write s.cfg n v) s)

/-- The register selector check, before any access (R183): go on with the selected register or raise
IllegalRegisterSelector. -/
def withRegister (sel : Word) (go : Reg → State → State) (s : State) : State :=
  match selectReg sel with
  | none => raise .illegalRegisterSelector sel s
  | some r => go r s

/-- `if condition: Redirect(target)`, then ADVANCE (R191 to R196). -/
def jumpWhen (condition : Bool) (target : Word) (s : State) : State :=
  advance (if condition then redirect target s else s)

end Sys2Proof.Machine
end

