-- ==== Sys2Proof/Machine/Arithmetic.lean ====
section
/-! DEFINITION. ADD, SUB, MUL and DIV over one shared sequence (41_arithmetic.md rules R165 to R170). -/

namespace Sys2Proof.Machine

/-- The end of the sequence of R165: `AC` gets the result and is written to the destination; an invalid destination
raises OutOfBounds with `AC` already written. -/
def storeResult (dst r : Word) (s : State) : State :=
  match memWrite dst r (setAc r s) with
  | none => raise .outOfBounds dst (setAc r s)
  | some t => advance t

/-- What the sequence does with the alu's outputs: a zero divisor clears `AC`, warns and holds PC, with no write and no
check of the destination (R170); any other result is stored (R165). -/
def finishArith (dst : Word) (r : AluResult) (s : State) : State :=
  if r.divz then warnDivisionByZero (setAc 0 s) else storeResult dst r.result s

/-- The sequence of R165: read the first source, read the second, compute, finish. Each read may raise OutOfBounds, and
what the step did before it stays (R206). -/
def arith (op : AluOp) (src1 src2 dst : Word) (s : State) : State :=
  match memRead src1 s with
  | none => raise .outOfBounds src1 s
  | some (x, s1) =>
    match memRead src2 s1 with
    | none => raise .outOfBounds src2 s1
    | some (y, s2) => finishArith dst (alu op x y) s2

/-- ADD (R166). -/
def execAdd (src1 src2 dst : Word) (s : State) : Host.Outcome State Fault Refusal :=
  .next (arith .add src1 src2 dst s)

/-- SUB (R167): the first operand minus the second. -/
def execSub (src1 src2 dst : Word) (s : State) : Host.Outcome State Fault Refusal :=
  .next (arith .sub src1 src2 dst s)

/-- MUL (R168). -/
def execMul (src1 src2 dst : Word) (s : State) : Host.Outcome State Fault Refusal :=
  .next (arith .mul src1 src2 dst s)

/-- DIV (R169, R170): the first operand divided by the second. -/
def execDiv (src1 src2 dst : Word) (s : State) : Host.Outcome State Fault Refusal :=
  .next (arith .div src1 src2 dst s)

end Sys2Proof.Machine
end

