-- ==== Sys2Proof/Machine/ControlTransfer.lean ====
section
/-! DEFINITION. The five jumps (43_control_transfer.md rules R190 to R196). -/

namespace Sys2Proof.Machine

/-- JUMP (R192). -/
def execJump (target : Word) (s : State) : Host.Outcome State Fault Refusal :=
  .next (jumpWhen true target s)

/-- JUMP_IF_ZERO (R193). -/
def execJumpIfZero (target : Word) (s : State) : Host.Outcome State Fault Refusal :=
  .next (jumpWhen (acZero s.ac) target s)

/-- JUMP_IF_NONZERO (R194). -/
def execJumpIfNonzero (target : Word) (s : State) : Host.Outcome State Fault Refusal :=
  .next (jumpWhen (acNonzero s.ac) target s)

/-- JUMP_IF_GT (R195). -/
def execJumpIfGt (target : Word) (s : State) : Host.Outcome State Fault Refusal :=
  .next (jumpWhen (acPositive s.ac) target s)

/-- JUMP_IF_LT (R196). -/
def execJumpIfLt (target : Word) (s : State) : Host.Outcome State Fault Refusal :=
  .next (jumpWhen (acNegative s.ac) target s)

end Sys2Proof.Machine
end

