-- ==== Sys2Proof/Machine/DataMovement.lean ====
section
/-! DEFINITION. The three copies (42_data_movement.md rules R180 to R183). -/

namespace Sys2Proof.Machine

/-- COPY_REG_TO_MEM (R181): the register's value is written to the destination address. -/
def execCopyRegToMem (sel dst : Word) (s : State) : Host.Outcome State Fault Refusal :=
  .next (withRegister sel (fun r s =>
    match memWrite dst (getReg r s) s with
    | none => raise .outOfBounds dst s
    | some t => advance t) s)

/-- COPY_MEM_TO_REG (R182): the word at the source address is read into the register. -/
def execCopyMemToReg (sel src : Word) (s : State) : Host.Outcome State Fault Refusal :=
  .next (withRegister sel (fun r s =>
    match memRead src s with
    | none => raise .outOfBounds src s
    | some (v, t) => advance (setReg r v t)) s)

/-- COPY_IMMEDIATE_TO_REG (R180): the literal's bits are written to the register; no access is made. -/
def execCopyImmediateToReg (sel imm : Word) (s : State) : Host.Outcome State Fault Refusal :=
  .next (withRegister sel (fun r s => advance (setReg r imm s)) s)

end Sys2Proof.Machine
end

