-- ==== Sys2Proof/Machine/Halting.lean ====
section
/-! DEFINITION. HALT (40_dispatch.md rules R146 and R149). -/

namespace Sys2Proof.Machine

/-- HALT (R146): `fsm_state` becomes HALTED, the event `done` is emitted, the outcome is HOLD. -/
def execHalt (s : State) : Host.Outcome State Fault Refusal :=
  .next (emit .done (setFsm .halted s))

end Sys2Proof.Machine
end

