-- ==== Sys2Proof/Machine/Dispatch.lean ====
section
/-! DEFINITION. The exhaustive match of 40_dispatch.md rule R144: one arm an instruction. `exec` is the execute phase and
the PC update of a step in RUN; the fetch has written IR before it (R142; log 20). -/

namespace Sys2Proof.Machine

def exec (i : Instr) (s : State) : Host.Outcome State Fault Refusal :=
  match i with
  | .halt => Sys2Proof.Machine.execHalt s
  | .add src1 src2 dst => Sys2Proof.Machine.execAdd src1 src2 dst s
  | .sub src1 src2 dst => Sys2Proof.Machine.execSub src1 src2 dst s
  | .mul src1 src2 dst => Sys2Proof.Machine.execMul src1 src2 dst s
  | .div src1 src2 dst => Sys2Proof.Machine.execDiv src1 src2 dst s
  | .copyRegToMem sel dst => Sys2Proof.Machine.execCopyRegToMem sel dst s
  | .copyMemToReg sel src => Sys2Proof.Machine.execCopyMemToReg sel src s
  | .copyImmediateToReg sel imm => Sys2Proof.Machine.execCopyImmediateToReg sel imm s
  | .jump target => Sys2Proof.Machine.execJump target s
  | .jumpIfZero target => Sys2Proof.Machine.execJumpIfZero target s
  | .jumpIfNonzero target => Sys2Proof.Machine.execJumpIfNonzero target s
  | .jumpIfGt target => Sys2Proof.Machine.execJumpIfGt target s
  | .jumpIfLt target => Sys2Proof.Machine.execJumpIfLt target s

end Sys2Proof.Machine
end

