-- ==== Sys2Proof/Machine/Sequencer.lean ====
section
/-! DEFINITION. The instruction_dispatch_fsm: bound check, fetch, decode, execute (40_dispatch.md rules R140 to R147). -/

namespace Sys2Proof.Machine

/-- The bound check passes: `0 <= s32(PC) < PROG_LEN` (R141). -/
def pcInBounds (s : State) : Bool := 0 ≤ s32 s.pc && s32 s.pc < s.progLen

/-- The end of a run at the bound check: BOUND and the event `bound`; there is no fetch (R141, R149). -/
def enterBound (s : State) : State := emit .bound (setFsm .bound s)

/-- `Fetch(p)` for `p = s32(PC)`: entry `p` of `PROGRAM`; no arbiter access is made (R142). -/
def fetch (s : State) : Option InstrWord := s.program[(s32 s.pc).toNat]?

/-- Decode and execute a fetched word: IR gets its opcode field (R142), an opcode of 13 or more raises IllegalOpcode
(R143, R203), any other runs its instruction (R144). -/
def runWord (w : InstrWord) (s : State) : Host.Outcome State Fault Refusal :=
  match decode w with
  | .ok i => exec i (setIr (opcodeField w) s)
  | .error (.illegalOpcode op) => .next (raise .illegalOpcode op (setIr (opcodeField w) s))

/-- One step in RUN (R141 to R145). -/
def stepInRun (s : State) : Host.Outcome State Fault Refusal :=
  if pcInBounds s then
    match fetch s with
    | some w => runWord w s
    | none => .fault (.programEntryMissing (s32 s.pc).toNat)
  else .next (enterBound s)

/-- One step: taken in RUN only (R140, R147; log 7). -/
def dispatchStep (s : State) : Host.Outcome State Fault Refusal :=
  match s.fsm with
  | .run => stepInRun s
  | .idle => .fault (.notRunning .idle)
  | .halted => .fault (.notRunning .halted)
  | .bound => .fault (.notRunning .bound)
  | .faulted => .fault (.notRunning .faulted)

/-- The state in which the next step runs this word: RUN, with the word at PC when PC lies in the program; otherwise a
one-entry program and PC 0, as a run start leaves them (R231, R233; log 6). -/
def placeWord (w : InstrWord) (s : State) : State :=
  if pcInBounds s && (fetch s).isSome then
    { s with
      fsm := .run
      program := s.program.set (s32 s.pc).toNat w }
  else
    { s with
      fsm := .run
      program := [w]
      progLen := 1
      pc := 0 }

end Sys2Proof.Machine
end

