-- ==== Sys2Proof/Machine/Step.lean ====
section
/-! DEFINITION. The step of the machine and the host's way to place one instruction. -/

namespace Sys2Proof.Machine

/-- One step of the instruction_dispatch_fsm (40_dispatch.md rule R140). -/
def step (s : State) : Host.Outcome State Fault Refusal := dispatchStep s

/-- `s` with the instruction of these bits stored where the next step fetches, in RUN (log 6). -/
def State.withFetchWord (s : State) (nbits w : Nat) : State := placeWord (tableWord nbits w) s

end Sys2Proof.Machine
end

