-- ==== Sys2Proof/Machine/HostPort.lean ====
section
/-! DEFINITION. What the host can do between steps (60_exceptions.md rule R217): the resets, the status registers, the
inspection ports, and the figures it computes from a statistics snapshot. -/

namespace Sys2Proof.Machine

/-- `STORE_INIT` as the host gives it (R37, R217): all-zero, or one integer for each word of the store. -/
inductive StoreInit where
  | zero
  | words (ws : List Int)
  deriving DecidableEq, Repr

/-- The store a `STORE_INIT` stands for; an integer outside the word range is refused (D2), and so is a list that is
not `STORE_WORDS` long (log 17). -/
def StoreInit.store (c : Config) : StoreInit → Except Refusal Memory
  | .zero => .ok []
  | .words ws =>
    if ws.length ≠ c.storeWords then .error .storeInitWrongSize
    else if ws.all fitsWord then .ok (Memory.ofWords 0 (ws.map w32))
    else .error .integerOutOfRange

/-- POWER_ON_RESET, accepted in every state, refused for a configuration that breaks R7 (R230). Nothing of the old
state is kept. -/
def powerOnReset (c : Config) (init : StoreInit) (_ : State) : Host.Outcome State Fault Refusal :=
  if c.wellFormed then
    match init.store c with
    | .ok m => .next (State.poweredOn c m)
    | .error r => .refused r
  else .refused .configurationIllFormed

/-- The states in which RUN_START is accepted (R231). -/
def FsmState.acceptsRunStart : FsmState → Bool
  | .idle => true
  | .run => false
  | .halted => true
  | .bound => true
  | .faulted => false

/-- What a run-start reset changes; the caches, the counters, the store and the fault record are kept (R231). -/
def startRun (program : List InstrWord) (progLen : Nat) (s : State) : State :=
  { s with
    program := program
    progLen := progLen
    pc := 0
    ac := 0
    ir := 0
    r1 := 0
    r2 := 0
    divz := false
    divzCount := 0
    fsm := .run }

/-- RUN_START (R231): refused in RUN and FAULTED, for a bound over 2^31 - 1 (R7), and for a program with fewer entries
than its bound (R6, R38; log 8). -/
def runStart (program : List InstrWord) (progLen : Nat) (s : State) : Host.Outcome State Fault Refusal :=
  if !s.fsm.acceptsRunStart then .refused (.runStartNotAllowed s.fsm)
  else if !progLenFits progLen then .refused .progLenOutOfRange
  else if program.length < progLen then .refused .programTooShort
  else .next (startRun program progLen s)

/-- The instruction words of a program given as tuples of integers; none when an integer is out of range (R121). -/
def programWords : List SourceTuple → Option (List InstrWord)
  | [] => some []
  | t :: ts =>
    match t.word?, programWords ts with
    | some w, some ws => some (w :: ws)
    | _, _ => none

/-- RUN_START with a program given as tuples of integers (R121). -/
def runStartTuples (program : List SourceTuple) (progLen : Nat) (s : State) : Host.Outcome State Fault Refusal :=
  match programWords program with
  | some ws => runStart ws progLen s
  | none => .refused .integerOutOfRange

/-- STATS_RESET, accepted in every state (R93). -/
def statsReset (s : State) : Host.Outcome State Fault Refusal :=
  .next (setMem s.mem.resetStatistics s)

/-- The host's requests that change the block (R217). -/
inductive HostCommand where
  | powerOnReset (c : Config) (init : StoreInit)
  | runStart (program : List InstrWord) (progLen : Nat)
  | runStartTuples (program : List SourceTuple) (progLen : Nat)
  | statsReset
  deriving DecidableEq, Repr

/-- The effect of a request, between two steps (R217). -/
def hostCommand (q : HostCommand) (s : State) : Host.Outcome State Fault Refusal :=
  match q with
  | .powerOnReset c init => powerOnReset c init s
  | .runStart program progLen => runStart program progLen s
  | .runStartTuples program progLen => runStartTuples program progLen s
  | .statsReset => statsReset s

/-- A 32-bit register as READ gives it: zero-extended (log 13). -/
def readWord (w : Word) : Counter := w.setWidth 64

/-- A configuration value in a status register `width` bits wide; a value too large for it is free (log 14). -/
def readConfig (number width value : Nat) : Counter :=
  if value < 2 ^ width then BitVec.ofNat 64 value
  else (Config.wideValue number value).setWidth width |>.setWidth 64

/-- READ(n): the numbered status registers; an unassigned number reads 0 (R36). -/
def readRegister (s : State) : Nat → Counter
  | 0x00 => readWord s.status
  | 0x01 => readWord s.fault.cause
  | 0x02 => readWord s.fault.pc
  | 0x03 => readWord s.fault.info
  | 0x04 => s.divzCount
  | 0x05 => readWord s.pc
  | 0x06 => readWord s.ir
  | 0x07 => readWord s.ac
  | 0x08 => readWord s.r1
  | 0x09 => readWord s.r2
  | 0x10 => s.mem.stats.globalTime
  | 0x11 => s.mem.stats.totalAccesses
  | 0x12 => s.mem.stats.totalHits
  | 0x13 => s.mem.stats.totalMisses
  | 0x14 => s.mem.stats.totalTime
  | 0x18 => s.mem.l1.hits
  | 0x19 => s.mem.l1.misses
  | 0x1A => s.mem.l2.hits
  | 0x1B => s.mem.l2.misses
  | 0x1C => s.mem.l3.hits
  | 0x1D => s.mem.l3.misses
  | 0x20 => readConfig 0x20 32 s.cfg.l1Lines
  | 0x21 => readConfig 0x21 32 s.cfg.l2Lines
  | 0x22 => readConfig 0x22 32 s.cfg.l3Lines
  | 0x23 => readConfig 0x23 64 s.cfg.l1Lat
  | 0x24 => readConfig 0x24 64 s.cfg.l2Lat
  | 0x25 => readConfig 0x25 64 s.cfg.l3Lat
  | 0x26 => readConfig 0x26 64 s.cfg.storeLat
  | 0x27 => readConfig 0x27 32 s.cfg.storeWords
  | 0x28 => readConfig 0x28 32 s.progLen
  | _ => 0

/-- Level `L` for L in 1 to 3 (R217). -/
def Hierarchy.level? (h : Hierarchy) : Nat → Option Level
  | 1 => some h.l1
  | 2 => some h.l2
  | 3 => some h.l3
  | _ => none

/-- LINE_STATE(L, i): a line's valid bit, tag, timestamp and data; a line that does not exist is refused (R36, R217). -/
def lineState (level i : Nat) (s : State) : Except Refusal Line :=
  match (s.mem.level? level).bind (fun c => c.lines[i]?) with
  | some l => .ok l
  | none => .error .noSuchLine

/-- STORE_WORD(a): the store's word, read past the arbiter; an address outside the store is refused (R36, R217). -/
def storeWord (a : Nat) (s : State) : Except Refusal Word :=
  match storeReadWord s.cfg s.mem.store a with
  | some v => .ok v
  | none => .error .noSuchWord

/-- The statistics snapshot (R95): registers 0x11 to 0x14 and 0x18 to 0x1D of R36. -/
structure Snapshot where
  totalAccesses : Counter
  totalHits : Counter
  totalMisses : Counter
  totalTime : Counter
  hits : Counter × Counter × Counter
  misses : Counter × Counter × Counter
  deriving DecidableEq, Repr

/-- The snapshot of a state, as the host reads it (R95). -/
def snapshot (s : State) : Snapshot where
  totalAccesses := readRegister s 0x11
  totalHits := readRegister s 0x12
  totalMisses := readRegister s 0x13
  totalTime := readRegister s 0x14
  hits := (readRegister s 0x18, readRegister s 0x1A, readRegister s 0x1C)
  misses := (readRegister s 0x19, readRegister s 0x1B, readRegister s 0x1D)

/-- A quotient of naturals, 0 when the divisor is 0. -/
def ratioOrZero (n d : Nat) : Rat := if d = 0 then 0 else (n : Rat) / (d : Rat)

/-- `hit_rate()`: `total_hits / total_accesses`, or 0 with no access, exactly (R94). -/
def Snapshot.hitRate (p : Snapshot) : Rat := ratioOrZero p.totalHits.toNat p.totalAccesses.toNat

/-- A level's hit-rate percentage, or 0 when it was never probed (R95). -/
def hitPercentage (hits misses : Counter) : Rat := ratioOrZero (100 * hits.toNat) (hits.toNat + misses.toNat)

/-- The average time per access, or 0 with no access (R95). -/
def Snapshot.averageTime (p : Snapshot) : Rat := ratioOrZero p.totalTime.toNat p.totalAccesses.toNat

end Sys2Proof.Machine
end

