-- ==== Sys2Proof/Safety.lean ====
section
/-! DEFINITION. The properties of states that the claims are stated with: the invariants the rules give, and what a
program can see of a state. -/

namespace Sys2Proof.Machine

/-- A valid line holds a block of the store, with the store's current words (20_memory.md rule R97). -/
def Line.coherent (c : Config) (m : Memory) (l : Line) : Prop :=
  l.valid = true → l.tag.toNat < c.storeBlocks ∧ l.data = m.block l.tag.toNat

/-- No two valid lines of a level have the same tag (20_memory.md rule R96). -/
def Level.tagsUnique (c : Level) : Prop :=
  c.lines.Pairwise fun x y => x.valid = true → y.valid = true → x.tag ≠ y.tag

/-- A level of `n` lines whose tags are unique and whose valid lines agree with the store. -/
structure LevelInv (c : Config) (n : Nat) (m : Memory) (l : Level) : Prop where
  size : l.lines.length = n
  unique : l.tagsUnique
  coherent : ∀ x ∈ l.lines, x.coherent c m

/-- The store's canonical form, with no cell outside the store (10_state.md rule R37). -/
structure StoreInv (c : Config) (m : Memory) : Prop where
  canonical : m.wf
  inRange : ∀ x ∈ m, x.1 < c.storeWords

/-- The invariant of the memory side (20_memory.md rules R96 and R97). -/
structure HierarchyInv (c : Config) (h : Hierarchy) : Prop where
  store : StoreInv c h.store
  l1 : LevelInv c c.l1Lines h.store h.l1
  l2 : LevelInv c c.l2Lines h.store h.l2
  l3 : LevelInv c c.l3Lines h.store h.l3

/-- A fault is on record exactly in FAULTED, with the cause code of a hard stop (1, 3 or 4) and the PC the block stopped
at (10_state.md rules R26 and R28). -/
def FaultRecordInv (s : State) : Prop :=
  (s.fsm ≠ .faulted → s.fault = FaultRecord.none) ∧
  (s.fsm = .faulted → s.fault.pc = s.pc ∧
    (s.fault.cause = 1 ∨ s.fault.cause = 3 ∨ s.fault.cause = 4))

/-- The invariant of a block that is not FAULTED: a configuration of R7, a program as long as its bound says, the memory
side's invariant, the fault record's, and no counted division warning without the sticky bit (10_state.md rules R27,
R29). -/
structure StateInv (s : State) : Prop where
  config : s.cfg.wellFormed = true
  progLen : progLenFits s.progLen = true
  program : s.progLen ≤ s.program.length
  mem : HierarchyInv s.cfg s.mem
  faultRecord : FaultRecordInv s
  divz : s.divz = false → s.divzCount = 0

/-- The invariant of every state. Of a FAULTED block it says nothing about the cache lines, because no claim may rely on
them (93_implementation_defined.md I3; log 11). -/
structure BlockInv (s : State) : Prop where
  config : s.cfg.wellFormed = true
  progLen : progLenFits s.progLen = true
  program : s.progLen ≤ s.program.length
  store : StoreInv s.cfg s.mem.store
  faultRecord : FaultRecordInv s
  divz : s.divz = false → s.divzCount = 0
  lines : s.fsm ≠ .faulted → HierarchyInv s.cfg s.mem

/-- The counters that count every access agree: the clock, `total_accesses`, and the probes of L1, which every access
makes (20_memory.md rules R71, R79, R84 to R86, R93). -/
def AccessCountersAgree (h : Hierarchy) : Prop :=
  h.stats.globalTime = h.stats.totalAccesses ∧ h.l1.hits + h.l1.misses = h.stats.totalAccesses

/-- An `addr` operand that names a word of the store (20_memory.md rule R61). -/
def State.validAddress (s : State) (a : Word) : Prop := 0 ≤ s32 a ∧ s32 a < s.cfg.storeWords

/-- The word address a valid `addr` operand names (20_memory.md rule R62). -/
def addressOf (a : Word) : Nat := (s32 a).toNat

/-- The word of the data space at an address: the store's (20_memory.md rule R98). -/
def State.word (s : State) (a : Nat) : Word := s.mem.store.read a

/-- Two states that agree in everything but the cache lines and the counters of the levels and of the arbiter: what is
hidden from programs (10_state.md rule R41). -/
structure SameButHidden (s t : State) : Prop where
  cfg : s.cfg = t.cfg
  program : s.program = t.program
  progLen : s.progLen = t.progLen
  pc : s.pc = t.pc
  ir : s.ir = t.ir
  ac : s.ac = t.ac
  r1 : s.r1 = t.r1
  r2 : s.r2 = t.r2
  fsm : s.fsm = t.fsm
  divz : s.divz = t.divz
  divzCount : s.divzCount = t.divzCount
  fault : s.fault = t.fault
  events : s.events = t.events
  store : s.mem.store = t.mem.store

/-- What no instruction but a stopping or a warning one changes: the configuration, the program, IR, the FSM, the
division warning's bit and count, the fault record and the events. -/
structure SameControl (s t : State) : Prop where
  cfg : t.cfg = s.cfg
  program : t.program = s.program
  progLen : t.progLen = s.progLen
  ir : t.ir = s.ir
  fsm : t.fsm = s.fsm
  divz : t.divz = s.divz
  divzCount : t.divzCount = s.divzCount
  fault : t.fault = s.fault
  events : t.events = s.events

/-- The arithmetic instruction of an alu operation (41_arithmetic.md rule R165). -/
def arithInstr : AluOp → Word → Word → Word → Instr
  | .add => .add
  | .sub => .sub
  | .mul => .mul
  | .div => .div

/-- What an arithmetic instruction does that reaches its destination (41_arithmetic.md rule R165): AC and the
destination get `r`, PC advances, the three accesses are read, read, write, and nothing else changes. -/
structure StoresResult (x y d r : Word) (s t : State) : Prop where
  ac : t.ac = r
  pc : t.pc = s.pc + 1
  word : ∀ a, t.word a = if a = addressOf d then r else s.word a
  mem : t.mem = ((s.mem.read s.cfg (addressOf x)).2.read s.cfg (addressOf y)).2.write s.cfg (addressOf d) r
  r1 : t.r1 = s.r1
  r2 : t.r2 = s.r2
  control : SameControl s t

/-- What an OutOfBounds stop leaves that a claim may speak of: everything but the cache lines and the statistics
(60_exceptions.md rules R201, R205, R206; 93_implementation_defined.md I3). The cause code is the 1 of rule R200. `ac` is
AC at the stop. -/
structure StopsOutOfBounds (info ac : Word) (s t : State) : Prop where
  fault : t.fault = { cause := 1, pc := s.pc, info := info }
  fsm : t.fsm = .faulted
  events : t.events = s.events ++ [.fault .outOfBounds info]
  pc : t.pc = s.pc
  ir : t.ir = s.ir
  ac : t.ac = ac
  r1 : t.r1 = s.r1
  r2 : t.r2 = s.r2
  divz : t.divz = s.divz
  divzCount : t.divzCount = s.divzCount
  cfg : t.cfg = s.cfg
  program : t.program = s.program
  progLen : t.progLen = s.progLen
  store : t.mem.store = s.mem.store

/-- The state a hard stop leaves: the fault record with this cause code, FAULTED and the event, all else as it is
(60_exceptions.md rule R205). The codes of rule R200 stand in the statements that use this. -/
def State.stoppedBy (s : State) (e : Cause) (code info : Word) : State :=
  { s with
    fault := { cause := code, pc := s.pc, info := info }
    fsm := .faulted
    events := s.events ++ [.fault e info] }

/-- A line as a power-on reset leaves it (70_reset_and_hazards.md rule R230). -/
def clearedLine : Line := { valid := false, tag := 0, data := ⟨0, 0, 0, 0⟩, lastUsed := 0 }

/-- What a power-on reset with this configuration leaves, the store apart (70_reset_and_hazards.md rule R230). The last
three fields are the model's own choice (logs 5 and 9). -/
structure ClearedByPowerOn (c : Config) (t : State) : Prop where
  cfg : t.cfg = c
  fsm : t.fsm = .idle
  status : t.status = 0
  pc : t.pc = 0
  ac : t.ac = 0
  ir : t.ir = 0
  r1 : t.r1 = 0
  r2 : t.r2 = 0
  divz : t.divz = false
  divzCount : t.divzCount = 0
  fault : t.fault = { cause := 0, pc := 0, info := 0 }
  stats : t.mem.stats =
    { globalTime := 0, totalAccesses := 0, totalHits := 0, totalMisses := 0, totalTime := 0 }
  l1 : t.mem.l1 = { lines := List.replicate c.l1Lines clearedLine, hits := 0, misses := 0 }
  l2 : t.mem.l2 = { lines := List.replicate c.l2Lines clearedLine, hits := 0, misses := 0 }
  l3 : t.mem.l3 = { lines := List.replicate c.l3Lines clearedLine, hits := 0, misses := 0 }
  program : t.program = []
  progLen : t.progLen = 0
  events : t.events = []

/-- The level at which a read of a block hits adds its latency and those of the faster levels; a full miss adds all
three and the store's (20_memory.md rule R84). -/
def readLatency (c : Config) (h : Hierarchy) (b : Nat) : Nat :=
  if h.l1.resident b then c.l1Lat
  else if h.l2.resident b then c.l1Lat + c.l2Lat
  else if h.l3.resident b then c.l1Lat + c.l2Lat + c.l3Lat
  else c.l1Lat + c.l2Lat + c.l3Lat + c.storeLat

/-- Some level holds the block. -/
def Hierarchy.residentSomewhere (h : Hierarchy) (b : Nat) : Bool :=
  h.l1.resident b || h.l2.resident b || h.l3.resident b

/-- Every valid line of `c`, by its index, is a valid line of `d`. -/
def Level.validLinesStay (c d : Level) : Prop :=
  ∀ (i : Nat) (x : Line), c.lines[i]? = some x → x.valid = true → ∃ y : Line, d.lines[i]? = some y ∧ y.valid = true

/-- Two outcomes that are both next states related by `r`, or the same stop. -/
def outcomesRelated (r : State → State → Prop) (x y : Host.Outcome State Fault Refusal) : Prop :=
  match x, y with
  | .next s, .next t => r s t
  | .fault a, .fault b => a = b
  | .refused a, .refused b => a = b
  | _, _ => False

end Sys2Proof.Machine
end

