-- ==== Sys2Proof/Certificates/Slice0/Obligations.lean ====
section
/-! DEFINITION. The statements for the provers. Each docstring names the rules of spec/ it formalises; where a clause is
the model's own choice it names the log entry. -/

open Sys2Proof Sys2Proof.Machine

/-! ## Encoding -/

/-- Decoding the word of any well-formed instruction gives the instruction back, with every operand at every value
(R121, R122, R124, R126). -/
def Obligations.DecodeOfEncodeIsTheInstruction : Prop :=
  ∀ i : Instr, i.wellFormed = true → decode (encode i) = .ok i

/-- A word that decodes is the word of its instruction, up to the unused fields, which are ignored (R122, R124, R125). -/
def Obligations.EncodeOfDecodeKeepsTheUsedFields : Prop :=
  ∀ (w : InstrWord) (i : Instr), decode w = .ok i → encode i = w &&& usedMask i

/-- The decoder rejects a word, naming its opcode field, exactly when that field is 13 or more (R122, R123). -/
def Obligations.DecodeRejectsExactlyOpcodesFromThirteen : Prop :=
  ∀ w : InstrWord,
    (decode w = .error (.illegalOpcode (opcodeField w)) ↔ 13 ≤ u32 (opcodeField w)) ∧
    ((∃ i, decode w = .ok i) ↔ u32 (opcodeField w) < 13)

/-- Five words written out from R121 and R122 decode to the instructions 95_test_vectors.md section 2.9 gives them. -/
def Obligations.WrittenWordsDecode : Prop :=
  decode 0x00000000000000000000000000000000 = .ok .halt ∧
  decode 0x00000064000000000000000000000001 = .ok (.add 0 0 100) ∧
  decode 0x00000000000000000000000100000005 = .ok (.copyRegToMem 1 0) ∧
  decode 0x00000000FFFFFFFF0000000200000007 = .ok (.copyImmediateToReg 2 0xFFFFFFFF) ∧
  decode 0x0000000000000000000000060000000B = .ok (.jumpIfGt 6)

/-- A tuple of integers in the word range becomes the word with opcode in bits 31:0 and the operands in bits 63:32, 95:64
and 127:96, each as its two's-complement pattern, and any other tuple is refused (R121). -/
def Obligations.TupleWordHoldsItsIntegers : Prop :=
  ∀ t : SourceTuple,
    (t.wellFormed = true → ∃ w, t.word? = some w ∧
      s32 (w.extractLsb' 0 32) = t.opcode ∧ s32 (w.extractLsb' 32 32) = t.operand1 ∧
      s32 (w.extractLsb' 64 32) = t.operand2 ∧ s32 (w.extractLsb' 96 32) = t.operand3) ∧
    (t.wellFormed = false → t.word? = none)

/-! ## The step -/

/-- When PC lies in the program and the entry there decodes, the step runs that instruction with its opcode field in IR
(R140, R142, R144). -/
def Obligations.StepRunsTheDecodedInstruction : Prop :=
  ∀ (s : State) (w : InstrWord) (i : Instr), s.fsm = .run → 0 ≤ s32 s.pc → s32 s.pc < s.progLen →
    s.program[(s32 s.pc).toNat]? = some w → decode w = .ok i → i.wellFormed = true →
    step s = exec i { s with ir := opcodeField w }

/-- A PC outside `[0, PROG_LEN)` ends the run in BOUND, with no fetch and nothing else changed but the event (R141,
R149). -/
def Obligations.StepEndsInBoundOutsideTheProgram : Prop :=
  ∀ s : State, s.fsm = .run → (s32 s.pc < 0 ∨ (s.progLen : Int) ≤ s32 s.pc) →
    step s = .next { s with fsm := .bound, events := s.events ++ [.bound] }

/-- An opcode of 13 or more stops the block at decode with cause code 3: IR keeps the opcode, no access is made (R143,
R200, R203, R205). -/
def Obligations.StepStopsAtAnIllegalOpcode : Prop :=
  ∀ (s : State) (w : InstrWord), s.fsm = .run → 0 ≤ s32 s.pc → s32 s.pc < s.progLen →
    s.program[(s32 s.pc).toNat]? = some w → 13 ≤ u32 (opcodeField w) →
    step s = .next (State.stoppedBy { s with ir := opcodeField w } .illegalOpcode 3 (opcodeField w))

/-- In IDLE, HALTED, BOUND and FAULTED no step is taken (R26, R147). That the model answers this with a fault of its
own is the model's choice (log 7). -/
def Obligations.StoppedBlockTakesNoStep : Prop :=
  ∀ s : State, s.fsm ≠ .run → step s = .fault (.notRunning s.fsm)

/-- In RUN the block always has a step: no state that meets the invariant is stuck (R241). -/
def Obligations.RunningBlockAlwaysSteps : Prop :=
  ∀ s : State, StateInv s → s.fsm = .run → ∃ t, step s = .next t

/-! ## HALT -/

/-- HALT, which every word with opcode 0 spells: HALTED, STATUS.DONE, the event `done`, and nothing else (R146). -/
def Obligations.HaltStopsTheBlock : Prop :=
  (∀ w : InstrWord, u32 (opcodeField w) = 0 → decode w = .ok .halt) ∧
  ∀ s : State, ∃ t, exec .halt s = .next t ∧
    t = { s with fsm := .halted, events := s.events ++ [.done] } ∧ t.status.getLsbD 4 = true

/-! ## The alu and the arithmetic instructions -/

/-- ADD, SUB and MUL wrap modulo 2^32 and never set `divz` (R161, R162, R163). -/
def Obligations.AluAddSubMulWrap : Prop :=
  ∀ a b : Word,
    alu .add a b = ⟨w32 (s32 a + s32 b), false⟩ ∧ (alu .add a b).result = a + b ∧
    alu .sub a b = ⟨w32 (s32 a - s32 b), false⟩ ∧ (alu .sub a b).result = a - b ∧
    alu .mul a b = ⟨w32 (s32 a * s32 b), false⟩ ∧ (alu .mul a b).result = a * b

/-- The DIV law: a zero divisor sets `divz` and gives 0; `-2^31 / -1` gives `0x80000000`; any other quotient is rounded
toward zero: its magnitude is the quotient of the magnitudes and its sign that of the exact quotient (R164). -/
def Obligations.AluDivRoundsTowardZero : Prop :=
  ∀ a b : Word,
    (s32 b = 0 → alu .div a b = ⟨0, true⟩) ∧
    (s32 a = -2 ^ 31 → s32 b = -1 → alu .div a b = ⟨0x80000000, false⟩) ∧
    (s32 b ≠ 0 → ¬ (s32 a = -2 ^ 31 ∧ s32 b = -1) →
      (alu .div a b).divz = false ∧
      (s32 (alu .div a b).result).natAbs = (s32 a).natAbs / (s32 b).natAbs ∧
      (0 ≤ s32 a * s32 b → 0 ≤ s32 (alu .div a b).result) ∧
      (s32 a * s32 b ≤ 0 → s32 (alu .div a b).result ≤ 0))

/-- ADD: AC and the destination word get the sum of the two source words, PC advances, nothing else changes but the
hidden effects of read, read, write (R165, R166). -/
def Obligations.AddStoresTheSum : Prop :=
  ∀ (s : State) (x y d : Word), StateInv s → s.validAddress x → s.validAddress y → s.validAddress d →
    ∃ t, exec (.add x y d) s = .next t ∧
      StoresResult x y d (s.word (addressOf x) + s.word (addressOf y)) s t

/-- SUB: as ADD, with the first word minus the second (R165, R167). -/
def Obligations.SubStoresTheDifference : Prop :=
  ∀ (s : State) (x y d : Word), StateInv s → s.validAddress x → s.validAddress y → s.validAddress d →
    ∃ t, exec (.sub x y d) s = .next t ∧
      StoresResult x y d (s.word (addressOf x) - s.word (addressOf y)) s t

/-- MUL: as ADD, with the low half of the product (R165, R168). -/
def Obligations.MulStoresTheProduct : Prop :=
  ∀ (s : State) (x y d : Word), StateInv s → s.validAddress x → s.validAddress y → s.validAddress d →
    ∃ t, exec (.mul x y d) s = .next t ∧
      StoresResult x y d (s.word (addressOf x) * s.word (addressOf y)) s t

/-- DIV with a divisor that is not zero: as ADD, with the quotient rounded toward zero, `-2^31 / -1` wrapping (R165,
R169). -/
def Obligations.DivStoresTheQuotient : Prop :=
  ∀ (s : State) (x y d : Word), StateInv s → s.validAddress x → s.validAddress y → s.validAddress d →
    s.word (addressOf y) ≠ 0 →
    ∃ t, exec (.div x y d) s = .next t ∧
      StoresResult x y d (w32 ((s32 (s.word (addressOf x))).tdiv (s32 (s.word (addressOf y))))) s t

/-- DIV with a zero divisor: AC is 0, the warning is on record, PC stays, the destination is neither written nor checked,
and nothing else changes but the hidden effects of the two reads (R170, R202). -/
def Obligations.DivByZeroWarnsAndHolds : Prop :=
  ∀ (s : State) (x y d : Word), StateInv s → s.validAddress x → s.validAddress y → s.word (addressOf y) = 0 →
    exec (.div x y d) s = .next
      { s with
        ac := 0
        divz := true
        divzCount := s.divzCount + 1
        events := s.events ++ [.warn .divisionByZero s.pc]
        mem := ((s.mem.read s.cfg (addressOf x)).2.read s.cfg (addressOf y)).2 }

/-- While the host issues no request, the stall of a DIV with a zero divisor never ends: after any number of steps the
block is in RUN at the same PC with the same store, and every step counted one warning and two accesses (R170, R236).
That no request comes between the steps is the model's run (log 22): a power-on reset ends the stall, and a STATS_RESET
restarts the count of accesses. -/
def Obligations.DivByZeroStallNeverEnds : Prop :=
  ∀ (s : State) (w : InstrWord) (x y d : Word), StateInv s → s.fsm = .run → pcInBounds s = true → fetch s = some w →
    decode w = .ok (.div x y d) → s.validAddress x → s.validAddress y → s.word (addressOf y) = 0 →
    ∀ k : Nat, ∃ t : State, Host.Core.run Sys2Proof.core k s = .next t ∧ t.fsm = .run ∧ t.pc = s.pc ∧
      (0 < k → t.ac = 0 ∧ t.divz = true) ∧ t.mem.store = s.mem.store ∧
      t.divzCount = s.divzCount + BitVec.ofNat 64 k ∧
      t.mem.stats.totalAccesses = s.mem.stats.totalAccesses + BitVec.ofNat 64 (2 * k)

/-- ADD, SUB, MUL and DIV stop with OutOfBounds, cause code 1, at the first invalid address in the order first source,
second source, destination; at the destination AC already holds the result (R165, R200, R201, R206, R207). -/
def Obligations.ArithmeticStopsAtTheFirstBadAddress : Prop :=
  ∀ (op : AluOp) (s : State) (x y d : Word),
    (¬ s.validAddress x → ∃ t, exec (arithInstr op x y d) s = .next t ∧ StopsOutOfBounds x s.ac s t) ∧
    (s.validAddress x → ¬ s.validAddress y →
      ∃ t, exec (arithInstr op x y d) s = .next t ∧ StopsOutOfBounds y s.ac s t) ∧
    (StateInv s → s.validAddress x → s.validAddress y → ¬ s.validAddress d →
      (op = .div → s.word (addressOf y) ≠ 0) →
      ∃ t, exec (arithInstr op x y d) s = .next t ∧
        StopsOutOfBounds d (alu op (s.word (addressOf x)) (s.word (addressOf y))).result s t)

/-! ## The copies -/

/-- COPY_IMMEDIATE_TO_REG, which every word with opcode 7 spells: the selected register gets the literal's bits and PC
advances, nothing else; any other selector raises IllegalRegisterSelector, cause code 4, and changes nothing else (R130,
R180, R183, R200). -/
def Obligations.CopyImmediateLoadsTheLiteral : Prop :=
  (∀ w : InstrWord, u32 (opcodeField w) = 7 → decode w = .ok (.copyImmediateToReg (op1Field w) (op2Field w))) ∧
  ∀ (s : State) (sel imm : Word),
    (s32 sel = 1 → exec (.copyImmediateToReg sel imm) s = .next { s with r1 := imm, pc := s.pc + 1 }) ∧
    (s32 sel = 2 → exec (.copyImmediateToReg sel imm) s = .next { s with r2 := imm, pc := s.pc + 1 }) ∧
    (s32 sel ≠ 1 → s32 sel ≠ 2 →
      exec (.copyImmediateToReg sel imm) s = .next (s.stoppedBy .illegalRegisterSelector 4 sel))

/-- COPY_REG_TO_MEM at a valid address: the destination word gets the selected register, every other word and every
register but PC stays (R181). -/
def Obligations.CopyRegToMemStoresTheRegister : Prop :=
  ∀ (s : State) (sel d : Word), StateInv s → s.validAddress d →
    (s32 sel = 1 → ∃ t, exec (.copyRegToMem sel d) s = .next t ∧
      t = { s with pc := s.pc + 1, mem := s.mem.write s.cfg (addressOf d) s.r1 } ∧
      ∀ a, t.word a = if a = addressOf d then s.r1 else s.word a) ∧
    (s32 sel = 2 → ∃ t, exec (.copyRegToMem sel d) s = .next t ∧
      t = { s with pc := s.pc + 1, mem := s.mem.write s.cfg (addressOf d) s.r2 } ∧
      ∀ a, t.word a = if a = addressOf d then s.r2 else s.word a)

/-- COPY_MEM_TO_REG at a valid address: the selected register gets the store's word, the other register, AC and the
store stay, PC advances (R182). -/
def Obligations.CopyMemToRegLoadsTheWord : Prop :=
  ∀ (s : State) (sel a : Word), StateInv s → s.validAddress a →
    (s32 sel = 1 → ∃ t, exec (.copyMemToReg sel a) s = .next t ∧
      t = { s with r1 := s.word (addressOf a), pc := s.pc + 1, mem := (s.mem.read s.cfg (addressOf a)).2 } ∧
      ∀ x, t.word x = s.word x) ∧
    (s32 sel = 2 → ∃ t, exec (.copyMemToReg sel a) s = .next t ∧
      t = { s with r2 := s.word (addressOf a), pc := s.pc + 1, mem := (s.mem.read s.cfg (addressOf a)).2 } ∧
      ∀ x, t.word x = s.word x)

/-- A selector other than 1 and 2 stops each of the three copies before any access, with cause code 4 and nothing else
changed (R183, R200, R204, R205). -/
def Obligations.CopiesStopAtABadSelector : Prop :=
  ∀ (s : State) (sel a : Word), s32 sel ≠ 1 → s32 sel ≠ 2 →
    exec (.copyRegToMem sel a) s = .next (s.stoppedBy .illegalRegisterSelector 4 sel) ∧
    exec (.copyMemToReg sel a) s = .next (s.stoppedBy .illegalRegisterSelector 4 sel) ∧
    exec (.copyImmediateToReg sel a) s = .next (s.stoppedBy .illegalRegisterSelector 4 sel)

/-- With a good selector and an invalid address, the two memory copies stop with OutOfBounds, cause code 1; registers and
store stay (R181, R182, R200, R201). -/
def Obligations.MemoryCopiesStopAtABadAddress : Prop :=
  ∀ (s : State) (sel a : Word), s32 sel = 1 ∨ s32 sel = 2 → ¬ s.validAddress a →
    (∃ t, exec (.copyRegToMem sel a) s = .next t ∧ StopsOutOfBounds a s.ac s t) ∧
    (∃ t, exec (.copyMemToReg sel a) s = .next t ∧ StopsOutOfBounds a s.ac s t)

/-! ## The jumps -/

/-- JUMP, opcode 8: PC is the target exactly, nothing else changes (R150, R191, R192). -/
def Obligations.JumpGoesToItsTarget : Prop :=
  (∀ w : InstrWord, u32 (opcodeField w) = 8 → decode w = .ok (.jump (op1Field w))) ∧
  ∀ (s : State) (p : Word), exec (.jump p) s = .next { s with pc := p }

/-- JUMP_IF_ZERO, opcode 9: to the target when AC is 0, else to the next entry (R191, R193). -/
def Obligations.JumpIfZeroFollowsAc : Prop :=
  (∀ w : InstrWord, u32 (opcodeField w) = 9 → decode w = .ok (.jumpIfZero (op1Field w))) ∧
  ∀ (s : State) (p : Word),
    exec (.jumpIfZero p) s = .next { s with pc := if s32 s.ac = 0 then p else s.pc + 1 }

/-- JUMP_IF_NONZERO, opcode 10: to the target when AC is not 0, else to the next entry (R191, R194). -/
def Obligations.JumpIfNonzeroFollowsAc : Prop :=
  (∀ w : InstrWord, u32 (opcodeField w) = 10 → decode w = .ok (.jumpIfNonzero (op1Field w))) ∧
  ∀ (s : State) (p : Word),
    exec (.jumpIfNonzero p) s = .next { s with pc := if s32 s.ac ≠ 0 then p else s.pc + 1 }

/-- JUMP_IF_GT, opcode 11: to the target when AC is positive as a signed number, else to the next entry (R191, R195). -/
def Obligations.JumpIfGtFollowsAc : Prop :=
  (∀ w : InstrWord, u32 (opcodeField w) = 11 → decode w = .ok (.jumpIfGt (op1Field w))) ∧
  ∀ (s : State) (p : Word),
    exec (.jumpIfGt p) s = .next { s with pc := if 0 < s32 s.ac then p else s.pc + 1 }

/-- JUMP_IF_LT, opcode 12: to the target when AC is negative as a signed number, else to the next entry (R191, R196). -/
def Obligations.JumpIfLtFollowsAc : Prop :=
  (∀ w : InstrWord, u32 (opcodeField w) = 12 → decode w = .ok (.jumpIfLt (op1Field w))) ∧
  ∀ (s : State) (p : Word),
    exec (.jumpIfLt p) s = .next { s with pc := if s32 s.ac < 0 then p else s.pc + 1 }

/-! ## One cache level -/

/-- A probe adds 1 to exactly one of `hits` and `misses`, by whether a valid line has the block's tag, and changes no
field of any line (R71, R72). -/
def Obligations.ProbeCountsOnceAndChangesNoLine : Prop :=
  ∀ (c : Level) (b : Nat),
    (c.probe b).2 =
      (if c.lines.any (fun l => l.valid && l.tag == tagOf b) then { c with hits := c.hits + 1 }
      else { c with misses := c.misses + 1 }) ∧
    ∀ i, (c.probe b).1 = some i ↔
      ((∃ l, c.lines[i]? = some l ∧ l.valid = true ∧ l.tag = tagOf b) ∧
        ∀ (j : Nat) (l : Line), j < i → c.lines[j]? = some l → ¬ (l.valid = true ∧ l.tag = tagOf b))

/-- The victim is the first invalid line; with none, the first line with the least timestamp, compared as unsigned
numbers (R74). -/
def Obligations.VictimIsFirstEmptyElseLeastRecentlyUsed : Prop :=
  ∀ c : Level, 0 < c.lines.length →
    (∀ (i : Nat) (l : Line), c.lines[i]? = some l → l.valid = false →
      (∀ (j : Nat) (k : Line), j < i → c.lines[j]? = some k → k.valid = true) → c.victim = i) ∧
    ((∀ l ∈ c.lines, l.valid = true) →
      ∃ v, c.lines[c.victim]? = some v ∧
        ∀ (j : Nat) (l : Line), c.lines[j]? = some l →
          v.lastUsed.toNat ≤ l.lastUsed.toNat ∧ (j < c.victim → v.lastUsed.toNat < l.lastUsed.toNat))

/-- An install fills the victim line and leaves every other line and both counters as they are (R75, R92). -/
def Obligations.InstallFillsOnlyTheVictim : Prop :=
  ∀ (c : Level) (b : Nat) (blk : Block) (t : Counter), 0 < c.lines.length →
    (c.install b blk t).lines[c.victim]? = some ⟨true, tagOf b, blk, t⟩ ∧
    (∀ j, j ≠ c.victim → (c.install b blk t).lines[j]? = c.lines[j]?) ∧
    (c.install b blk t).lines.length = c.lines.length ∧
    (c.install b blk t).hits = c.hits ∧ (c.install b blk t).misses = c.misses

/-! ## The arbiter -/

/-- A read of a valid address answers the store's word whatever the caches hold, and changes nothing but the hidden
state (R98, R41). -/
def Obligations.ReadReturnsTheStoresWord : Prop :=
  ∀ (s : State) (a : Word), StateInv s → s.validAddress a →
    ∃ t, memRead a s = some (s.word (addressOf a), t) ∧
      t = { s with mem := (s.mem.read s.cfg (addressOf a)).2 } ∧ t.mem.store = s.mem.store

/-- What a read counts: one access, one of `total_hits` and `total_misses`, the latencies down to the level that hits;
the levels it does not probe do not change (R79 to R84). -/
def Obligations.ReadCountsByTheLevelThatHits : Prop :=
  ∀ (c : Config) (h : Hierarchy) (a : Nat),
    let b := blockIndex a
    let g := (h.read c a).2
    g.stats =
      { globalTime := h.stats.globalTime + 1
        totalAccesses := h.stats.totalAccesses + 1
        totalHits := if h.residentSomewhere b then h.stats.totalHits + 1 else h.stats.totalHits
        totalMisses := if h.residentSomewhere b then h.stats.totalMisses else h.stats.totalMisses + 1
        totalTime := h.stats.totalTime + BitVec.ofNat 64 (readLatency c h b) } ∧
    (h.l1.resident b = true → g.l2 = h.l2 ∧ g.l3 = h.l3 ∧ g.l1.hits = h.l1.hits + 1 ∧ g.l1.misses = h.l1.misses) ∧
    (h.l1.resident b = false → g.l1.hits = h.l1.hits ∧ g.l1.misses = h.l1.misses + 1) ∧
    (h.l1.resident b = false → h.l2.resident b = true →
      g.l3 = h.l3 ∧ g.l2.hits = h.l2.hits + 1 ∧ g.l2.misses = h.l2.misses) ∧
    (h.l1.resident b = false → h.l2.resident b = false →
      g.l2.hits = h.l2.hits ∧ g.l2.misses = h.l2.misses + 1 ∧
      g.l3.hits = (if h.l3.resident b then h.l3.hits + 1 else h.l3.hits) ∧
      g.l3.misses = (if h.l3.resident b then h.l3.misses else h.l3.misses + 1))

/-- Read-side inclusion in the form the rules give: after a read the block is in L1; after an L2 hit in L2 too, with L3
as it was; after an L3 hit or a full miss in all three levels (R99). -/
def Obligations.ReadLeavesTheBlockInTheLevelsOfR99 : Prop :=
  ∀ (c : Config) (h : Hierarchy) (a : Nat), 0 < h.l1.lines.length → 0 < h.l2.lines.length → 0 < h.l3.lines.length →
    let b := blockIndex a
    let g := (h.read c a).2
    g.l1.resident b = true ∧
    (h.l1.resident b = true → g.l2 = h.l2 ∧ g.l3 = h.l3) ∧
    (h.l1.resident b = false → h.l2.resident b = true → g.l2.resident b = true ∧ g.l3 = h.l3) ∧
    (h.l1.resident b = false → h.l2.resident b = false → g.l2.resident b = true ∧ g.l3.resident b = true)

/-- Write-through: a write to a valid address sets that word of the store and no other, whatever the caches hold (R89,
R98). -/
def Obligations.WriteReachesTheStore : Prop :=
  ∀ (s : State) (a v : Word), StateInv s → s.validAddress a →
    ∃ t, memWrite a v s = some t ∧ t = { s with mem := s.mem.write s.cfg (addressOf a) v } ∧
      ∀ x, t.word x = if x = addressOf a then v else s.word x

/-- What a write counts: one access, the full latency, no total hit or miss, and one probe of every level (R85, R90,
R91). -/
def Obligations.WriteCountsEveryLevel : Prop :=
  ∀ (c : Config) (h : Hierarchy) (a : Nat) (v : Word),
    let b := blockIndex a
    let g := h.write c a v
    g.stats =
      { globalTime := h.stats.globalTime + 1
        totalAccesses := h.stats.totalAccesses + 1
        totalHits := h.stats.totalHits
        totalMisses := h.stats.totalMisses
        totalTime := h.stats.totalTime + BitVec.ofNat 64 (c.l1Lat + c.l2Lat + c.l3Lat + c.storeLat) } ∧
    g.l1.hits = (if h.l1.resident b then h.l1.hits + 1 else h.l1.hits) ∧
    g.l1.misses = (if h.l1.resident b then h.l1.misses else h.l1.misses + 1) ∧
    g.l2.hits = (if h.l2.resident b then h.l2.hits + 1 else h.l2.hits) ∧
    g.l2.misses = (if h.l2.resident b then h.l2.misses else h.l2.misses + 1) ∧
    g.l3.hits = (if h.l3.resident b then h.l3.hits + 1 else h.l3.hits) ∧
    g.l3.misses = (if h.l3.resident b then h.l3.misses else h.l3.misses + 1)

/-- Write-allocate in L1 only: after a write L1 holds the block, and L2 and L3 hold exactly the blocks they held (R86,
R87, R88, R100). -/
def Obligations.WriteAllocatesInL1Only : Prop :=
  ∀ (c : Config) (h : Hierarchy) (a : Nat) (v : Word), 0 < h.l1.lines.length →
    (h.write c a v).l1.resident (blockIndex a) = true ∧
    (h.l1.resident (blockIndex a) = true → ∀ b, (h.write c a v).l1.resident b = h.l1.resident b) ∧
    (∀ b, (h.write c a v).l2.resident b = h.l2.resident b) ∧
    (∀ b, (h.write c a v).l3.resident b = h.l3.resident b)

/-! ## The whole machine -/

/-- AC is written by ADD, SUB, MUL and DIV only (R21). -/
def Obligations.OnlyArithmeticWritesAc : Prop :=
  ∀ (i : Instr) (s t : State), (∀ op x y d, i ≠ arithInstr op x y d) → exec i s = .next t → t.ac = s.ac

/-- R1 and R2 are written by COPY_IMMEDIATE_TO_REG and COPY_MEM_TO_REG only, and by these only when selected (R22). -/
def Obligations.OnlyCopiesToRegistersWriteThem : Prop :=
  ∀ (i : Instr) (s t : State), exec i s = .next t →
    ((∀ sel v, s32 sel = 1 → i ≠ .copyImmediateToReg sel v ∧ i ≠ .copyMemToReg sel v) → t.r1 = s.r1) ∧
    ((∀ sel v, s32 sel = 2 → i ≠ .copyImmediateToReg sel v ∧ i ≠ .copyMemToReg sel v) → t.r2 = s.r2)

/-- The store is changed by the arithmetic instructions and COPY_REG_TO_MEM only, and HALT, the jumps and
COPY_IMMEDIATE_TO_REG make no access at all (R60, R146, R180). -/
def Obligations.OnlyStoringInstructionsChangeTheStore : Prop :=
  ∀ (i : Instr) (s t : State), exec i s = .next t → (∀ op x y d, i ≠ arithInstr op x y d) →
    (∀ sel d, i ≠ .copyRegToMem sel d) →
    t.mem.store = s.mem.store ∧ ((∀ sel a, i ≠ .copyMemToReg sel a) → t.mem = s.mem)

/-- No step changes the configuration, the program or its bound (R35, R38, R104). -/
def Obligations.StepKeepsConfigurationAndProgram : Prop :=
  ∀ s t : State, step s = .next t → t.cfg = s.cfg ∧ t.program = s.program ∧ t.progLen = s.progLen

/-- How each state of the FSM is entered: never IDLE; BOUND only at the bound check; HALTED only by HALT; FAULTED only
with a fault event and PC unchanged (R26, R147). -/
def Obligations.FsmStatesAreEnteredAsR26Says : Prop :=
  ∀ s t : State, step s = .next t →
    s.fsm = .run ∧ t.fsm ≠ .idle ∧
    (t.fsm = .bound ↔ pcInBounds s = false) ∧
    (t.fsm = .halted ↔ pcInBounds s = true ∧ ∃ w, fetch s = some w ∧ decode w = .ok .halt) ∧
    (t.fsm = .faulted ↔ ∃ e info, t.events = s.events ++ [.fault e info]) ∧
    (t.fsm ≠ .run → t.pc = s.pc)

/-- A step emits at most one event, after all earlier ones (R207, R210). -/
def Obligations.StepEmitsAtMostOneEvent : Prop :=
  ∀ s t : State, step s = .next t → t.events = s.events ∨ ∃ e, t.events = s.events ++ [e]

/-- No step that does not end in FAULTED makes a valid line invalid (R30, R92, R105). Steps that end in FAULTED are left
out, because no claim may rely on their lines (93_implementation_defined.md I3; log 11). -/
def Obligations.StepKeepsValidLinesValid : Prop :=
  ∀ s t : State, step s = .next t → t.fsm ≠ .faulted →
    s.mem.l1.validLinesStay t.mem.l1 ∧ s.mem.l2.validLinesStay t.mem.l2 ∧ s.mem.l3.validLinesStay t.mem.l3

/-- The clock, `total_accesses` and the probes of L1 keep agreeing through every step that does not end in FAULTED (R71,
R79, R84, R85, R86). Steps that end in FAULTED are left out, because no claim may rely on their statistics
(93_implementation_defined.md I3; log 11). -/
def Obligations.StepKeepsAccessCountersInAgreement : Prop :=
  ∀ s t : State, AccessCountersAgree s.mem → step s = .next t → t.fsm ≠ .faulted → AccessCountersAgree t.mem

/-- Every step keeps the invariant: tag uniqueness and coherence in every level while the block is not FAULTED, the
store's canonical form, the fault record as the FSM says (R26, R28, R96, R97). -/
def Obligations.StepKeepsTheBlockInvariant : Prop :=
  ∀ s t : State, BlockInv s → step s = .next t → BlockInv t

/-- The state after reset meets the invariant. Its configuration, its store and its empty program are the model's choices
(logs 3, 4, 5). -/
def Obligations.ResetMeetsTheBlockInvariant : Prop :=
  BlockInv State.reset ∧ AccessCountersAgree State.reset.mem

/-- A program cannot tell one cache state from another: from two states that meet the invariant and agree in everything
but the hidden state, the step gives states that agree so again, or the same stop (R41, R98). -/
def Obligations.CachesAreInvisibleToPrograms : Prop :=
  ∀ s t : State, StateInv s → StateInv t → SameButHidden s t → outcomesRelated SameButHidden (step s) (step t)

/-! ## The host -/

/-- POWER_ON_RESET with a zero-initialised store is accepted in every state for a configuration of R7 and leaves what R230
lists; with a configuration that breaks R7 it is refused, whatever the store (R7, R230). That the program is empty and no
event is pending afterwards is the model's choice (logs 5, 9). -/
def Obligations.PowerOnResetLeavesWhatR230Lists : Prop :=
  ∀ (c : Config) (s : State),
    (c.wellFormed = true → ∃ t, powerOnReset c .zero s = .next t ∧ BlockInv t ∧ AccessCountersAgree t.mem ∧
      ClearedByPowerOn c t ∧ ∀ a, t.word a = 0) ∧
    (c.wellFormed = false → ∀ init, powerOnReset c init s = .refused .configurationIllFormed)

/-- POWER_ON_RESET with a store the host supplies leaves the same registers, counters and lines as with a zero-initialised
one, and the store holds exactly the host's words; a word outside the 32-bit range is refused (R37, R121, R230). That the
program is empty and no event is pending afterwards is the model's choice (logs 5, 9). -/
def Obligations.PowerOnResetStoresTheHostsWords : Prop :=
  ∀ (c : Config) (ws : List Int) (s : State), c.wellFormed = true → ws.length = c.storeWords →
    ((∀ n ∈ ws, fitsWord n = true) →
      ∃ t, powerOnReset c (.words ws) s = .next t ∧ BlockInv t ∧ AccessCountersAgree t.mem ∧ ClearedByPowerOn c t ∧
        ∀ (a : Nat) (n : Int), ws[a]? = some n → s32 (t.word a) = n) ∧
    ((∃ n ∈ ws, fitsWord n = false) → powerOnReset c (.words ws) s = .refused .integerOutOfRange)

/-- RUN_START in IDLE, HALTED and BOUND clears the registers and the division warning, latches the program and enters
RUN, and keeps caches, counters, store and fault record; a bound over 2^31 - 1 is refused, and in RUN and FAULTED every
request is (R7, R217, R231). -/
def Obligations.RunStartClearsTheRegistersOnly : Prop :=
  ∀ (p : List InstrWord) (n : Nat) (s : State),
    (s.fsm = .idle ∨ s.fsm = .halted ∨ s.fsm = .bound → n ≤ 2 ^ 31 - 1 → n ≤ p.length →
      runStart p n s = .next
        { s with
          program := p
          progLen := n
          pc := 0
          ac := 0
          ir := 0
          r1 := 0
          r2 := 0
          divz := false
          divzCount := 0
          fsm := .run }) ∧
    (s.fsm = .idle ∨ s.fsm = .halted ∨ s.fsm = .bound → 2 ^ 31 - 1 < n →
      runStart p n s = .refused .progLenOutOfRange) ∧
    (s.fsm = .run ∨ s.fsm = .faulted → runStart p n s = .refused (.runStartNotAllowed s.fsm))

/-- STATS_RESET zeroes the arbiter's and every level's counters and changes nothing else, and a second one changes
nothing (R77, R93). -/
def Obligations.StatsResetZeroesTheCountersOnly : Prop :=
  ∀ s : State, ∃ t, statsReset s = .next t ∧
    t = { s with
          mem :=
            { stats := ⟨0, 0, 0, 0, 0⟩
              l1 := { s.mem.l1 with hits := 0, misses := 0 }
              l2 := { s.mem.l2 with hits := 0, misses := 0 }
              l3 := { s.mem.l3 with hits := 0, misses := 0 }
              store := s.mem.store } } ∧
    statsReset t = .next t

/-- Every accepted request of the host keeps the invariant (R96, R97, R217, R230, R231, R93). -/
def Obligations.HostRequestsKeepTheBlockInvariant : Prop :=
  ∀ (q : HostCommand) (s t : State), BlockInv s → hostCommand q s = .next t →
    BlockInv t ∧ (AccessCountersAgree s.mem → AccessCountersAgree t.mem)

/-- The fields of STATUS, with the numbers of the five states: IDLE 0, RUN 1, HALTED 2, BOUND 3, FAULTED 4 (R26, R27). -/
def Obligations.StatusShowsItsFields : Prop :=
  ∀ s : State,
    s.status.extractLsb' 0 3 =
      (match s.fsm with
      | .idle => 0
      | .run => 1
      | .halted => 2
      | .bound => 3
      | .faulted => 4) ∧
    s.status.getLsbD 3 = s.divz ∧
    (s.status.getLsbD 4 = true ↔ s.fsm = .halted ∨ s.fsm = .bound) ∧ s.status.extractLsb' 5 27 = 0

/-- The numbered registers the host reads, and 0 for an unassigned number (R36). That a 32-bit register reads as its
zero-extension is the model's choice (log 13). -/
def Obligations.HostReadsTheNumberedRegisters : Prop :=
  ∀ s : State,
    readRegister s 0x00 = s.status.setWidth 64 ∧ readRegister s 0x01 = s.fault.cause.setWidth 64 ∧
    readRegister s 0x02 = s.fault.pc.setWidth 64 ∧ readRegister s 0x03 = s.fault.info.setWidth 64 ∧
    readRegister s 0x04 = s.divzCount ∧ readRegister s 0x05 = s.pc.setWidth 64 ∧
    readRegister s 0x06 = s.ir.setWidth 64 ∧ readRegister s 0x07 = s.ac.setWidth 64 ∧
    readRegister s 0x08 = s.r1.setWidth 64 ∧ readRegister s 0x09 = s.r2.setWidth 64 ∧
    readRegister s 0x10 = s.mem.stats.globalTime ∧ readRegister s 0x11 = s.mem.stats.totalAccesses ∧
    readRegister s 0x12 = s.mem.stats.totalHits ∧ readRegister s 0x13 = s.mem.stats.totalMisses ∧
    readRegister s 0x14 = s.mem.stats.totalTime ∧
    readRegister s 0x18 = s.mem.l1.hits ∧ readRegister s 0x19 = s.mem.l1.misses ∧
    readRegister s 0x1A = s.mem.l2.hits ∧ readRegister s 0x1B = s.mem.l2.misses ∧
    readRegister s 0x1C = s.mem.l3.hits ∧ readRegister s 0x1D = s.mem.l3.misses ∧
    (s.cfg.l1Lines < 2 ^ 32 → (readRegister s 0x20).toNat = s.cfg.l1Lines) ∧
    (s.cfg.l2Lines < 2 ^ 32 → (readRegister s 0x21).toNat = s.cfg.l2Lines) ∧
    (s.cfg.l3Lines < 2 ^ 32 → (readRegister s 0x22).toNat = s.cfg.l3Lines) ∧
    (s.cfg.l1Lat < 2 ^ 64 → (readRegister s 0x23).toNat = s.cfg.l1Lat) ∧
    (s.cfg.l2Lat < 2 ^ 64 → (readRegister s 0x24).toNat = s.cfg.l2Lat) ∧
    (s.cfg.l3Lat < 2 ^ 64 → (readRegister s 0x25).toNat = s.cfg.l3Lat) ∧
    (s.cfg.storeLat < 2 ^ 64 → (readRegister s 0x26).toNat = s.cfg.storeLat) ∧
    (s.cfg.storeWords < 2 ^ 32 → (readRegister s 0x27).toNat = s.cfg.storeWords) ∧
    (s.progLen < 2 ^ 32 → (readRegister s 0x28).toNat = s.progLen) ∧
    ∀ n, (0x0A ≤ n ∧ n ≤ 0x0F) ∨ (0x15 ≤ n ∧ n ≤ 0x17) ∨ (0x1E ≤ n ∧ n ≤ 0x1F) ∨ 0x29 ≤ n → readRegister s n = 0

/-- LINE_STATE and STORE_WORD answer the line and the word that exist and refuse the others (R36, R217). -/
def Obligations.HostInspectsLinesAndWords : Prop :=
  ∀ s : State,
    (∀ (i : Nat) (l : Line), s.mem.l1.lines[i]? = some l → lineState 1 i s = .ok l) ∧
    (∀ (i : Nat) (l : Line), s.mem.l2.lines[i]? = some l → lineState 2 i s = .ok l) ∧
    (∀ (i : Nat) (l : Line), s.mem.l3.lines[i]? = some l → lineState 3 i s = .ok l) ∧
    (∀ i, s.mem.l1.lines.length ≤ i → lineState 1 i s = .error .noSuchLine) ∧
    (∀ i, s.mem.l2.lines.length ≤ i → lineState 2 i s = .error .noSuchLine) ∧
    (∀ i, s.mem.l3.lines.length ≤ i → lineState 3 i s = .error .noSuchLine) ∧
    (∀ level i, level = 0 ∨ 4 ≤ level → lineState level i s = .error .noSuchLine) ∧
    (∀ a, a < s.cfg.storeWords → storeWord a s = .ok (s.word a)) ∧
    (∀ a, s.cfg.storeWords ≤ a → storeWord a s = .error .noSuchWord)

/-! ## The paths of an access, with the time they write into the lines -/

/-- A read takes the path of R80, R81, R82 or R83. Its time is the clock after the access's tick. The line it hits gets
that time and keeps the rest; each level above gets a copy of the block, with that time, in its victim line; every other
line stays. The counters and the cycles charged are those of the path (R73, R75, R79 to R84). -/
def Obligations.ReadTakesThePathOfTheLevelThatHits : Prop :=
  ∀ (c : Config) (h : Hierarchy) (a : Nat),
    let b := blockIndex a
    let k := wordOffset a
    let t := h.stats.globalTime + 1
    let onHit (cycles : Nat) : Statistics :=
      { globalTime := t
        totalAccesses := h.stats.totalAccesses + 1
        totalHits := h.stats.totalHits + 1
        totalMisses := h.stats.totalMisses
        totalTime := h.stats.totalTime + BitVec.ofNat 64 cycles }
    let filled (l : Level) (blk : Block) : Level :=
      { lines := l.lines.set l.victim { valid := true, tag := tagOf b, data := blk, lastUsed := t }
        hits := l.hits
        misses := l.misses + 1 }
    let touched (l : Level) (i : Nat) (x : Line) : Level :=
      { lines := l.lines.set i { x with lastUsed := t }, hits := l.hits + 1, misses := l.misses }
    (∀ (i : Nat) (x : Line), (h.l1.probe b).1 = some i → h.l1.lines[i]? = some x →
      h.read c a = (x.data.get k, { h with stats := onHit c.l1Lat, l1 := touched h.l1 i x })) ∧
    (∀ (i : Nat) (x : Line), (h.l1.probe b).1 = none → (h.l2.probe b).1 = some i → h.l2.lines[i]? = some x →
      h.read c a = (x.data.get k,
        { h with
          stats := onHit (c.l1Lat + c.l2Lat)
          l1 := filled h.l1 x.data
          l2 := touched h.l2 i x })) ∧
    (∀ (i : Nat) (x : Line), (h.l1.probe b).1 = none → (h.l2.probe b).1 = none → (h.l3.probe b).1 = some i →
      h.l3.lines[i]? = some x →
      h.read c a = (x.data.get k,
        { h with
          stats := onHit (c.l1Lat + c.l2Lat + c.l3Lat)
          l1 := filled h.l1 x.data
          l2 := filled h.l2 x.data
          l3 := touched h.l3 i x })) ∧
    ((h.l1.probe b).1 = none → (h.l2.probe b).1 = none → (h.l3.probe b).1 = none →
      h.read c a = ((h.store.block b).get k,
        { stats :=
            { globalTime := t
              totalAccesses := h.stats.totalAccesses + 1
              totalHits := h.stats.totalHits
              totalMisses := h.stats.totalMisses + 1
              totalTime := h.stats.totalTime + BitVec.ofNat 64 (c.l1Lat + c.l2Lat + c.l3Lat + c.storeLat) }
          l1 := filled h.l1 (h.store.block b)
          l2 := filled h.l2 (h.store.block b)
          l3 := filled h.l3 (h.store.block b)
          store := h.store }))

/-- A write probes every level. A level that holds the block gets the word in its line, with the time of the access; L1
on a miss gets the store's block with the word written, with that time, in its victim line; L2 and L3 on a miss keep
their lines; every other line stays (R75, R76, R85 to R88). -/
def Obligations.WriteUpdatesEveryLevelThatHoldsTheBlock : Prop :=
  ∀ (c : Config) (h : Hierarchy) (a : Nat) (v : Word),
    let b := blockIndex a
    let k := wordOffset a
    let t := h.stats.globalTime + 1
    let g := h.write c a v
    let updated (l : Level) (i : Nat) (x : Line) : Level :=
      { lines := l.lines.set i { x with data := x.data.set k v, lastUsed := t }
        hits := l.hits + 1
        misses := l.misses }
    g.stats.globalTime = t ∧ g.stats.totalAccesses = h.stats.totalAccesses + 1 ∧
    (∀ (i : Nat) (x : Line), (h.l1.probe b).1 = some i → h.l1.lines[i]? = some x → g.l1 = updated h.l1 i x) ∧
    ((h.l1.probe b).1 = none →
      g.l1 =
        { lines := h.l1.lines.set h.l1.victim
            { valid := true, tag := tagOf b, data := (h.store.block b).set k v, lastUsed := t }
          hits := h.l1.hits
          misses := h.l1.misses + 1 }) ∧
    (∀ (i : Nat) (x : Line), (h.l2.probe b).1 = some i → h.l2.lines[i]? = some x → g.l2 = updated h.l2 i x) ∧
    ((h.l2.probe b).1 = none → g.l2 = { h.l2 with misses := h.l2.misses + 1 }) ∧
    (∀ (i : Nat) (x : Line), (h.l3.probe b).1 = some i → h.l3.lines[i]? = some x → g.l3 = updated h.l3 i x) ∧
    ((h.l3.probe b).1 = none → g.l3 = { h.l3 with misses := h.l3.misses + 1 })
end

