-- ==== Sys2Proof/Laws/Store.lean ====
section
/-! SUPPORT. What reading and writing the store and its blocks do. -/

namespace Sys2Proof.Machine

theorem Memory.read_cons (a b : Nat) (v : Word) (m : Memory) (h : m.read a = Memory.unlisted) :
    (Memory.cons a v m).read b = if b = a then v else m.read b := by
  unfold Memory.cons
  by_cases hv : v = Memory.unlisted
  · by_cases hb : b = a
    · subst hb; simp [hv, h]
    · simp [hv, hb]
  · simp [hv, Memory.read]

/-- Every address below the first cell is unlisted. -/
theorem Memory.read_below {m : Memory} {a : Nat} (h : ∀ x ∈ m, a < x.1) : m.read a = Memory.unlisted := by
  induction m with
  | nil => rfl
  | cons x m ih =>
    obtain ⟨b, w⟩ := x
    have hb : a < b := h (b, w) (by simp)
    have : a ≠ b := by omega
    simp only [Memory.read, this, if_false]
    exact ih fun y hy => h y (by simp [hy])

/-- The tail of a canonical store is canonical, and its addresses lie above the first cell's. -/
theorem Memory.wf_tail {b : Nat} {w : Word} {m : Memory} (h : Memory.wf ((b, w) :: m)) :
    m.wf ∧ (∀ x ∈ m, b < x.1) ∧ w ≠ Memory.unlisted := by
  obtain ⟨hp, hz⟩ := h
  rw [List.pairwise_cons] at hp
  exact ⟨⟨hp.2, fun x hx => hz x (by simp [hx])⟩, fun x hx => hp.1 x hx, hz (b, w) (by simp)⟩

theorem Memory.wf_cons {a : Nat} {v : Word} {m : Memory} (hm : m.wf) (ha : ∀ x ∈ m, a < x.1) :
    (Memory.cons a v m).wf := by
  unfold Memory.cons
  split
  · exact hm
  · rename_i hv
    refine ⟨List.pairwise_cons.mpr ⟨fun x hx => ha x hx, hm.1⟩, ?_⟩
    intro x hx
    rcases List.mem_cons.mp hx with rfl | hx
    · exact hv
    · exact hm.2 x hx

theorem Memory.mem_cons {a : Nat} {v : Word} {m : Memory} {x : StoreCell} (h : x ∈ Memory.cons a v m) :
    x.1 = a ∨ x ∈ m := by
  unfold Memory.cons at h
  split at h
  · exact .inr h
  · rcases List.mem_cons.mp h with rfl | h
    · exact .inl rfl
    · exact .inr h

/-- The cells after a write are at the written address or were there before. -/
theorem Memory.mem_write {m : Memory} {a : Nat} {v : Word} {x : StoreCell} (h : x ∈ m.write a v) :
    x.1 = a ∨ x ∈ m := by
  induction m with
  | nil => exact Memory.mem_cons h
  | cons y m ih =>
    obtain ⟨b, w⟩ := y
    simp only [Memory.write] at h
    split at h
    · exact Memory.mem_cons h
    · split at h
      · rcases Memory.mem_cons h with h | h
        · exact .inl h
        · exact .inr (by simp [h])
      · rcases List.mem_cons.mp h with rfl | h
        · exact .inr (by simp)
        · rcases ih h with h | h
          · exact .inl h
          · exact .inr (by simp [h])

/-- A write keeps the canonical form. -/
theorem Memory.write_wf {m : Memory} (a : Nat) (v : Word) (h : m.wf) : (m.write a v).wf := by
  induction m with
  | nil => exact Memory.wf_cons h (by simp)
  | cons y m ih =>
    obtain ⟨b, w⟩ := y
    obtain ⟨hm, hb, hw⟩ := Memory.wf_tail h
    simp only [Memory.write]
    split
    · rename_i hab
      refine Memory.wf_cons h ?_
      intro x hx
      rcases List.mem_cons.mp hx with rfl | hx
      · exact hab
      · exact lt_trans hab (hb x hx)
    · split
      · rename_i hab; subst hab
        exact Memory.wf_cons hm hb
      · rename_i hlt hne
        refine ⟨List.pairwise_cons.mpr ⟨?_, (ih hm).1⟩, ?_⟩
        · intro x hx
          rcases Memory.mem_write hx with hx | hx
          · simp only [hx]; omega
          · exact hb x hx
        · intro x hx
          rcases List.mem_cons.mp hx with rfl | hx
          · exact hw
          · exact (ih hm).2 x hx

/-- Reading after a write: the written word at its address, the old word everywhere else. -/
theorem Memory.read_write {m : Memory} (h : m.wf) (a b : Nat) (v : Word) :
    (m.write a v).read b = if b = a then v else m.read b := by
  induction m with
  | nil => exact Memory.read_cons a b v [] rfl
  | cons y m ih =>
    obtain ⟨c, w⟩ := y
    obtain ⟨hm, hc, -⟩ := Memory.wf_tail h
    simp only [Memory.write]
    split
    · rename_i hac
      refine Memory.read_cons a b v _ (Memory.read_below ?_)
      intro x hx
      rcases List.mem_cons.mp hx with rfl | hx
      · exact hac
      · exact lt_trans hac (hc x hx)
    · split
      · rename_i hac; subst hac
        rw [Memory.read_cons a b v m (Memory.read_below hc)]
        by_cases hb : b = a <;> simp [hb, Memory.read]
      · rename_i hlt hne
        simp only [Memory.read, ih hm]
        by_cases hb : b = c
        · subst hb
          have : b ≠ a := fun e => hne e.symm
          simp [this]
        · simp [hb]

theorem Memory.read_write_same {m : Memory} (h : m.wf) (a : Nat) (v : Word) : (m.write a v).read a = v := by
  simp [Memory.read_write h]

theorem Memory.read_write_other {m : Memory} (h : m.wf) {a b : Nat} (v : Word) (hab : b ≠ a) :
    (m.write a v).read b = m.read b := by
  simp [Memory.read_write h, hab]

/-- Canonical stores that read the same everywhere are the same data. -/
theorem Memory.eq_of_read {m n : Memory} (hm : m.wf) (hn : n.wf) (h : ∀ a, m.read a = n.read a) : m = n := by
  induction m generalizing n with
  | nil =>
    cases n with
    | nil => rfl
    | cons y n =>
      obtain ⟨c, w⟩ := y
      obtain ⟨-, -, hw⟩ := Memory.wf_tail hn
      have := h c
      simp only [Memory.read, if_true] at this
      exact absurd this.symm hw
  | cons x m ih =>
    obtain ⟨b, v⟩ := x
    obtain ⟨hm', hb, hv⟩ := Memory.wf_tail hm
    cases n with
    | nil =>
      have := h b
      simp only [Memory.read, if_true] at this
      exact absurd this hv
    | cons y n =>
      obtain ⟨c, w⟩ := y
      obtain ⟨hn', hc, hw⟩ := Memory.wf_tail hn
      have hbc : b = c := by
        rcases Nat.lt_trichotomy b c with hlt | heq | hlt
        · have h1 := h b
          have h2 : Memory.read ((c, w) :: n) b = Memory.unlisted := Memory.read_below (by
            intro x hx
            rcases List.mem_cons.mp hx with rfl | hx
            · exact hlt
            · exact lt_trans hlt (hc x hx))
          rw [h2] at h1
          simp only [Memory.read, if_true] at h1
          exact absurd h1 hv
        · exact heq
        · have h1 := h c
          have h2 : Memory.read ((b, v) :: m) c = Memory.unlisted := Memory.read_below (by
            intro x hx
            rcases List.mem_cons.mp hx with rfl | hx
            · exact hlt
            · exact lt_trans hlt (hb x hx))
          rw [h2] at h1
          simp only [Memory.read, if_true] at h1
          exact absurd h1.symm hw
      subst hbc
      have hvw : v = w := by
        have := h b
        simpa [Memory.read] using this
      subst hvw
      have htail : ∀ a, Memory.read m a = Memory.read n a := by
        intro a
        by_cases ha : a = b
        · subst ha
          rw [Memory.read_below hb, Memory.read_below hc]
        · have := h a
          simpa [Memory.read, ha] using this
      rw [ih hm' hn' htail]

/-- The host's words read back, and the store they make is canonical (R37). -/
theorem Memory.ofWords_spec (a : Nat) (vs : List Word) :
    (Memory.ofWords a vs).wf ∧ (∀ x ∈ Memory.ofWords a vs, a ≤ x.1 ∧ x.1 < a + vs.length) ∧
      ∀ k, (Memory.ofWords a vs).read (a + k) = (vs[k]?).getD Memory.unlisted := by
  induction vs generalizing a with
  | nil => exact ⟨⟨List.Pairwise.nil, by simp [Memory.ofWords]⟩, by simp [Memory.ofWords], by simp [Memory.ofWords, Memory.read]⟩
  | cons v vs ih =>
    obtain ⟨hwf, hr, hrd⟩ := ih (a + 1)
    have hlow : ∀ x ∈ Memory.ofWords (a + 1) vs, a < x.1 := fun x hx => by have := hr x hx; omega
    refine ⟨Memory.wf_cons hwf hlow, ?_, ?_⟩
    · intro x hx
      rcases Memory.mem_cons hx with hx | hx
      · simp [hx]
      · have := hr x hx; simp only [List.length_cons]; omega
    · intro k
      rw [Memory.ofWords, Memory.read_cons _ _ _ _ (Memory.read_below hlow)]
      cases k with
      | zero => simp
      | succ k =>
        have := hrd k
        have e : a + (k + 1) = a + 1 + k := by omega
        have hne : a + 1 + k ≠ a := by omega
        simp [e, this, hne]

/-! Blocks -/

theorem wordOffset_lt (a : Nat) : wordOffset a < 4 := Nat.mod_lt _ (by decide)

theorem address_split (a : Nat) : 4 * blockIndex a + wordOffset a = a := Nat.div_add_mod a 4

/-- Element `k` of a block of the store is the word at offset `k` (R63). -/
theorem Memory.get_block (m : Memory) (b : Nat) {k : Nat} (hk : k < 4) : (m.block b).get k = m.read (4 * b + k) := by
  match k, hk with
  | 0, _ => rfl
  | 1, _ => rfl
  | 2, _ => rfl
  | 3, _ => rfl

/-- The word of the store that an address's block and offset name. -/
theorem Memory.get_block_of_address (m : Memory) (a : Nat) :
    (m.block (blockIndex a)).get (wordOffset a) = m.read a := by
  rw [Memory.get_block m _ (wordOffset_lt a), address_split]

theorem Block.ext_get {x y : Block} (h : ∀ k, k < 4 → x.get k = y.get k) : x = y := by
  cases x; cases y
  have h0 := h 0 (by decide)
  have h1 := h 1 (by decide)
  have h2 := h 2 (by decide)
  have h3 := h 3 (by decide)
  simp only [Block.get] at h0 h1 h2 h3
  simp [h0, h1, h2, h3]

theorem Block.get_set (blk : Block) (v : Word) {k j : Nat} (hk : k < 4) (hj : j < 4) :
    (blk.set k v).get j = if j = k then v else blk.get j := by
  match k, hk, j, hj with
  | 0, _, 0, _ => rfl
  | 0, _, 1, _ => rfl
  | 0, _, 2, _ => rfl
  | 0, _, 3, _ => rfl
  | 1, _, 0, _ => rfl
  | 1, _, 1, _ => rfl
  | 1, _, 2, _ => rfl
  | 1, _, 3, _ => rfl
  | 2, _, 0, _ => rfl
  | 2, _, 1, _ => rfl
  | 2, _, 2, _ => rfl
  | 2, _, 3, _ => rfl
  | 3, _, 0, _ => rfl
  | 3, _, 1, _ => rfl
  | 3, _, 2, _ => rfl
  | 3, _, 3, _ => rfl

/-- The block of a written word is the old block with that word set. -/
theorem Memory.block_write_same {m : Memory} (h : m.wf) (a : Nat) (v : Word) :
    (m.write a v).block (blockIndex a) = (m.block (blockIndex a)).set (wordOffset a) v := by
  refine Block.ext_get fun k hk => ?_
  rw [Memory.get_block _ _ hk, Block.get_set _ _ (wordOffset_lt a) hk, Memory.get_block _ _ hk,
    Memory.read_write h]
  have := address_split a
  by_cases hka : k = wordOffset a
  · simp [hka, this]
  · have : 4 * blockIndex a + k ≠ a := by omega
    simp [hka, this]

/-- The other blocks keep their words. -/
theorem Memory.block_write_other {m : Memory} (h : m.wf) {a b : Nat} (v : Word) (hb : b ≠ blockIndex a) :
    (m.write a v).block b = m.block b := by
  refine Block.ext_get fun k hk => ?_
  rw [Memory.get_block _ _ hk, Memory.get_block _ _ hk]
  refine Memory.read_write_other h v ?_
  have := address_split a
  have := wordOffset_lt a
  omega

/-- Setting a block changes its four words and no other (R64). -/
theorem Memory.read_setBlock {m : Memory} (h : m.wf) (b : Nat) (blk : Block) (a : Nat) :
    (m.setBlock b blk).read a = if blockIndex a = b then blk.get (wordOffset a) else m.read a := by
  have w0 := Memory.write_wf (wordsPerBlock * b) blk.w0 h
  have w1 := Memory.write_wf (wordsPerBlock * b + 1) blk.w1 w0
  have w2 := Memory.write_wf (wordsPerBlock * b + 2) blk.w2 w1
  unfold Memory.setBlock
  rw [Memory.read_write w2, Memory.read_write w1, Memory.read_write w0, Memory.read_write h]
  have hs := address_split a
  have hk := wordOffset_lt a
  simp only [wordsPerBlock]
  by_cases hb : blockIndex a = b
  · subst hb
    simp only [if_true]
    generalize wordOffset a = k at *
    rcases (by omega : k = 0 ∨ k = 1 ∨ k = 2 ∨ k = 3) with rfl | rfl | rfl | rfl
    · rw [if_neg (by omega), if_neg (by omega), if_neg (by omega), if_pos (by omega)]; rfl
    · rw [if_neg (by omega), if_neg (by omega), if_pos (by omega)]; rfl
    · rw [if_neg (by omega), if_pos (by omega)]; rfl
    · rw [if_pos (by omega)]; rfl
  · rw [if_neg hb, if_neg (by omega), if_neg (by omega), if_neg (by omega), if_neg (by omega)]

/-- The four store primitives meet OutOfBounds exactly outside the store (R64). -/
theorem store_primitives_bounds (c : Config) (m : Memory) (a b : Nat) (v : Word) (blk : Block) :
    ((storeReadWord c m a).isSome = true ↔ a < c.storeWords) ∧
    ((storeWriteWord c m a v).isSome = true ↔ a < c.storeWords) ∧
    ((storeReadBlock c m b).isSome = true ↔ b < c.storeBlocks) ∧
    ((storeWriteBlock c m b blk).isSome = true ↔ b < c.storeBlocks) := by
  unfold storeReadWord storeWriteWord storeReadBlock storeWriteBlock
  refine ⟨?_, ?_, ?_, ?_⟩ <;> split <;> simp_all

end Sys2Proof.Machine
end

