-- ==== Sys2Proof/Laws/Cache.lean ====
section
/-! SUPPORT. What the operations on one cache level do, and that they keep the level's invariant. -/

namespace Sys2Proof.Machine

/-! Probes -/

/-- A hit names a line of the level that holds the block (R71). -/
theorem Level.find_some {c : Level} {b i : Nat} (h : c.find b = some i) :
    ∃ l, c.lines[i]? = some l ∧ l.valid = true ∧ l.tag = tagOf b := by
  obtain ⟨hi, hp, -⟩ := List.findIdx?_eq_some_iff_getElem.mp h
  refine ⟨c.lines[i], by simp [hi], ?_⟩
  simpa [Line.holds] using hp

/-- A hit is the first such line in index order (R71). -/
theorem Level.find_some_first {c : Level} {b i j : Nat} {l : Line} (h : c.find b = some i) (hj : j < i)
    (hl : c.lines[j]? = some l) : l.holds b = false := by
  obtain ⟨hi, -, hf⟩ := List.findIdx?_eq_some_iff_getElem.mp h
  have := hf j hj
  rw [List.getElem?_eq_getElem (by omega)] at hl
  simp only [Option.some.injEq] at hl
  simpa [hl] using this

/-- A miss means that no line holds the block (R71). -/
theorem Level.find_none {c : Level} {b : Nat} (h : c.find b = none) {l : Line} (hl : l ∈ c.lines) :
    l.holds b = false := by
  simpa using List.findIdx?_eq_none_iff.mp h l hl

theorem Level.find_isSome (c : Level) (b : Nat) : (c.find b).isSome = c.resident b := by
  simp [Level.find, Level.resident, List.findIdx?_isSome]

/-- A probe adds 1 to exactly one counter and changes no line (R71, R72). -/
theorem Level.probe_counts (c : Level) (b : Nat) :
    (c.probe b).2.lines = c.lines ∧
    ((c.probe b).2.hits = if c.resident b then c.hits + 1 else c.hits) ∧
    ((c.probe b).2.misses = if c.resident b then c.misses else c.misses + 1) := by
  rw [← Level.find_isSome]
  unfold Level.probe
  cases h : c.find b <;> simp [Level.count]

@[simp] theorem Level.count_lines (c : Level) (r : Option Nat) : (c.count r).lines = c.lines := by
  cases r <;> rfl

@[simp] theorem Level.probe_fst (c : Level) (b : Nat) : (c.probe b).1 = c.find b := rfl

@[simp] theorem Level.probe_lines (c : Level) (b : Nat) : (c.probe b).2.lines = c.lines :=
  (c.probe_counts b).1

theorem Level.probe_hits_add_misses (c : Level) (b : Nat) :
    (c.probe b).2.hits + (c.probe b).2.misses = c.hits + c.misses + 1 := by
  obtain ⟨-, hh, hm⟩ := c.probe_counts b
  rw [hh, hm]
  split <;> ring

@[simp] theorem Level.dataAt_probe (c : Level) (b i : Nat) : (c.probe b).2.dataAt i = c.dataAt i := by
  simp [Level.dataAt]

@[simp] theorem Level.victim_probe (c : Level) (b : Nat) : (c.probe b).2.victim = c.victim := by
  simp [Level.victim]

/-! Changes of one line -/

@[simp] theorem Level.modifyLine_hits (c : Level) (i : Nat) (f : Line → Line) :
    (c.modifyLine i f).hits = c.hits := rfl

@[simp] theorem Level.modifyLine_misses (c : Level) (i : Nat) (f : Line → Line) :
    (c.modifyLine i f).misses = c.misses := rfl

@[simp] theorem Level.modifyLine_length (c : Level) (i : Nat) (f : Line → Line) :
    (c.modifyLine i f).lines.length = c.lines.length := by
  simp [Level.modifyLine]

/-- The lines after a change of line `i`. -/
theorem Level.modifyLine_get (c : Level) (i j : Nat) (f : Line → Line) :
    (c.modifyLine i f).lines[j]? = if i = j then (c.lines[j]?).map f else c.lines[j]? := by
  simp only [Level.modifyLine, List.getElem?_modify]
  split <;> simp

/-- Changing a line that is there replaces it. -/
theorem Level.modifyLine_eq_set {c : Level} {i : Nat} {x : Line} (h : c.lines[i]? = some x) (f : Line → Line) :
    c.modifyLine i f = { c with lines := c.lines.set i (f x) } := by
  rw [Level.modifyLine, List.modify_eq_set_getElem?, h]
  rfl

/-- A touch replaces the line by itself with the new timestamp (R73). -/
theorem Level.touch_eq_set {c : Level} {i : Nat} {x : Line} (h : c.lines[i]? = some x) (t : Counter) :
    c.touch i t = { c with lines := c.lines.set i { x with lastUsed := t } } :=
  Level.modifyLine_eq_set h _

/-- An in-place write replaces the line by itself with the word and the timestamp (R76). -/
theorem Level.writeInPlace_eq_set {c : Level} {i : Nat} {x : Line} (h : c.lines[i]? = some x) (k : Nat) (v : Word)
    (t : Counter) :
    c.writeInPlace i k v t = { c with lines := c.lines.set i { x with data := x.data.set k v, lastUsed := t } } :=
  Level.modifyLine_eq_set h _

/-- An install replaces the victim line; with no line there is nothing to replace (R75; log 19). -/
theorem Level.install_eq_set (c : Level) (b : Nat) (blk : Block) (t : Counter) :
    c.install b blk t = { c with lines := c.lines.set c.victim ⟨true, tagOf b, blk, t⟩ } := by
  rw [Level.install, Level.modifyLine, List.modify_eq_set_getElem?]
  cases h : c.lines[c.victim]? with
  | some x => rfl
  | none => rw [List.set_eq_of_length_le (List.getElem?_eq_none_iff.mp h)]; rfl

/-- The data of a line that is there. -/
theorem Level.dataAt_eq {c : Level} {i : Nat} {x : Line} (h : c.lines[i]? = some x) : c.dataAt i = x.data := by
  simp [Level.dataAt, h]

@[simp] theorem Level.touch_hits (c : Level) (i : Nat) (t : Counter) : (c.touch i t).hits = c.hits := rfl
@[simp] theorem Level.touch_misses (c : Level) (i : Nat) (t : Counter) : (c.touch i t).misses = c.misses := rfl
@[simp] theorem Level.install_hits (c : Level) (b : Nat) (blk : Block) (t : Counter) :
    (c.install b blk t).hits = c.hits := rfl
@[simp] theorem Level.install_misses (c : Level) (b : Nat) (blk : Block) (t : Counter) :
    (c.install b blk t).misses = c.misses := rfl
@[simp] theorem Level.writeInPlace_hits (c : Level) (i k : Nat) (v : Word) (t : Counter) :
    (c.writeInPlace i k v t).hits = c.hits := rfl
@[simp] theorem Level.writeInPlace_misses (c : Level) (i k : Nat) (v : Word) (t : Counter) :
    (c.writeInPlace i k v t).misses = c.misses := rfl

/-! The victim -/

/-- The victim of a level that has a line is one of its lines (R74). -/
theorem Level.victim_lt {c : Level} (h : 0 < c.lines.length) : c.victim < c.lines.length := by
  unfold Level.victim
  split
  · rename_i i hi
    exact (List.findIdx?_eq_some_iff_getElem.mp hi).1
  · rw [List.findIdx_lt_length]
    unfold leastUsed
    have hne : (c.lines.map fun l => l.lastUsed.toNat) ≠ [] := by
      intro e
      have := congrArg List.length e
      simp at this
      simp [this] at h
    obtain ⟨m, hm⟩ := Option.isSome_iff_exists.mp (List.isSome_min?_of_ne_nil hne)
    have hmem := List.min?_mem hm
    obtain ⟨l, hl, he⟩ := List.mem_map.mp hmem
    exact ⟨l, hl, by simp [hm, he]⟩

/-- Least recently used: when every line is valid, no line has an older timestamp than the victim, and a line with the
same timestamp does not stand before it (R74). -/
theorem Level.victim_least {c : Level} {v l : Line} {j : Nat} (hall : ∀ l ∈ c.lines, l.valid = true)
    (hv : c.lines[c.victim]? = some v) (hl : c.lines[j]? = some l) :
    v.lastUsed.toNat ≤ l.lastUsed.toNat ∧ (l.lastUsed = v.lastUsed → c.victim ≤ j) := by
  have hnone : c.lines.findIdx? (fun l => !l.valid) = none := by
    rw [List.findIdx?_eq_none_iff]
    intro x hx
    simp [hall x hx]
  have hvic : c.victim = c.lines.findIdx fun l => l.lastUsed.toNat == leastUsed c.lines := by
    simp [Level.victim, hnone]
  have hlt : c.victim < c.lines.length := by
    by_contra hge
    rw [List.getElem?_eq_none (by omega)] at hv
    simp at hv
  have hvm : v.lastUsed.toNat = leastUsed c.lines := by
    have := List.findIdx_getElem (xs := c.lines) (p := fun l => l.lastUsed.toNat == leastUsed c.lines)
      (w := by rw [← hvic]; exact hlt)
    simp only [← hvic] at this
    rw [List.getElem?_eq_getElem hlt] at hv
    simp only [Option.some.injEq] at hv
    rw [hv] at this
    simpa using this
  have hjl : j < c.lines.length := by
    by_contra hge
    rw [List.getElem?_eq_none (by omega)] at hl
    simp at hl
  have hmem : l ∈ c.lines := List.mem_of_getElem? hl
  refine ⟨?_, ?_⟩
  · rw [hvm]
    unfold leastUsed
    have hmm : l.lastUsed.toNat ∈ c.lines.map fun l => l.lastUsed.toNat := List.mem_map.mpr ⟨l, hmem, rfl⟩
    obtain ⟨m, hm⟩ := Option.isSome_iff_exists.mp (List.isSome_min?_of_mem hmm)
    rw [hm]
    exact (List.min?_eq_some_iff.mp hm).2 _ hmm
  · intro he
    by_contra hlt'
    have := List.not_of_lt_findIdx (xs := c.lines) (p := fun l => l.lastUsed.toNat == leastUsed c.lines) (i := j)
      (by rw [← hvic]; omega)
    rw [List.getElem?_eq_getElem hjl] at hl
    simp only [Option.some.injEq] at hl
    simp [hl, he, hvm] at this

/-! The invariant -/

theorem tagOf_toNat {b : Nat} (h : b < 2 ^ 30) : (tagOf b).toNat = b := by
  simp only [tagOf, BitVec.toNat_ofNat]
  exact Nat.mod_eq_of_lt h

theorem Level.tagsUnique_iff (c : Level) :
    c.tagsUnique ↔ ∀ (i j : Nat) (x y : Line), i ≠ j → c.lines[i]? = some x → c.lines[j]? = some y →
      x.valid = true → y.valid = true → x.tag ≠ y.tag := by
  unfold Level.tagsUnique
  rw [List.pairwise_iff_getElem]
  constructor
  · intro h i j x y hij hx hy vx vy
    obtain ⟨hi, rfl⟩ := List.getElem?_eq_some_iff.mp hx
    obtain ⟨hj, rfl⟩ := List.getElem?_eq_some_iff.mp hy
    rcases Nat.lt_or_gt_of_ne hij with hlt | hlt
    · exact h i j hi hj hlt vx vy
    · exact (h j i hj hi hlt vy vx).symm
  · intro h i j hi hj hij vx vy
    exact h i j _ _ (Nat.ne_of_lt hij) (List.getElem?_eq_getElem hi) (List.getElem?_eq_getElem hj) vx vy

/-- A line that is not the one hit has another tag (R96). -/
theorem LevelInv.other_tag {c : Config} {n : Nat} {m : Memory} {l : Level} (h : LevelInv c n m l) {b i j : Nat}
    {x : Line} (hf : l.find b = some i) (hij : i ≠ j) (hx : l.lines[j]? = some x) (vx : x.valid = true) :
    x.tag ≠ tagOf b := by
  obtain ⟨y, hy, vy, ty⟩ := Level.find_some hf
  rw [← ty]
  exact ((Level.tagsUnique_iff l).mp h.unique i j y x hij hy hx vy vx).symm

/-- The data of a hit line are the store's block (R97). -/
theorem LevelInv.dataAt {c : Config} {n : Nat} {m : Memory} {l : Level} (h : LevelInv c n m l) {b i : Nat}
    (hb : b < 2 ^ 30) (hf : l.find b = some i) : l.dataAt i = m.block b := by
  obtain ⟨x, hx, vx, tx⟩ := Level.find_some hf
  have hc := (h.coherent x (List.mem_of_getElem? hx) vx).2
  simp [Level.dataAt, hx, hc, tx, tagOf_toNat hb]

/-- The invariant speaks of the lines only. -/
theorem LevelInv.of_lines {c : Config} {n : Nat} {m : Memory} {l k : Level} (h : LevelInv c n m l)
    (e : k.lines = l.lines) : LevelInv c n m k where
  size := by rw [e]; exact h.size
  unique := by have := h.unique; unfold Level.tagsUnique at *; rw [e]; exact this
  coherent := by rw [e]; exact h.coherent

theorem LevelInv.probe {c : Config} {n : Nat} {m : Memory} {l : Level} (h : LevelInv c n m l) (b : Nat) :
    LevelInv c n m (l.probe b).2 := h.of_lines (by simp)

/-- The invariant after one line changed and the store changed with it: the other lines keep their blocks, the changed
line holds the store's block and a tag of its own. -/
theorem LevelInv.modifyLine {c : Config} {n i : Nat} {m m' : Memory} {l : Level} {f : Line → Line}
    (h : LevelInv c n m l)
    (hother : ∀ j x, i ≠ j → l.lines[j]? = some x → x.coherent c m')
    (hthis : ∀ x, l.lines[i]? = some x → (f x).coherent c m')
    (hdiff : ∀ j x y, i ≠ j → l.lines[i]? = some x → l.lines[j]? = some y →
      (f x).valid = true → y.valid = true → (f x).tag ≠ y.tag) :
    LevelInv c n m' (l.modifyLine i f) where
  size := by simpa using h.size
  unique := by
    rw [Level.tagsUnique_iff]
    have hu := (Level.tagsUnique_iff l).mp h.unique
    intro j k x y hjk hx hy vx vy
    rw [Level.modifyLine_get] at hx hy
    by_cases hj : i = j
    · subst hj
      rw [if_pos rfl] at hx
      rw [if_neg hjk] at hy
      obtain ⟨x0, hx0, rfl⟩ := Option.map_eq_some_iff.mp hx
      exact hdiff k x0 y hjk hx0 hy vx vy
    · rw [if_neg hj] at hx
      by_cases hk : i = k
      · subst hk
        rw [if_pos rfl] at hy
        obtain ⟨y0, hy0, rfl⟩ := Option.map_eq_some_iff.mp hy
        exact (hdiff j y0 x hj hy0 hx vy vx).symm
      · rw [if_neg hk] at hy
        exact hu j k x y hjk hx hy vx vy
  coherent := by
    intro x hx
    obtain ⟨j, hj, rfl⟩ := List.mem_iff_getElem.mp hx
    have hg := Level.modifyLine_get l i j f
    rw [List.getElem?_eq_getElem hj] at hg
    by_cases hij : i = j
    · rw [if_pos hij] at hg
      obtain ⟨y, hy, he⟩ := Option.map_eq_some_iff.mp hg.symm
      rw [← he]
      exact hthis y (by rw [hij]; exact hy)
    · rw [if_neg hij] at hg
      exact hother j _ hij hg.symm

/-- A touch keeps the invariant: only a timestamp changes (R73). -/
theorem LevelInv.touch {c : Config} {n : Nat} {m : Memory} {l : Level} (h : LevelInv c n m l) (i : Nat) (t : Counter) :
    LevelInv c n m (l.touch i t) := by
  refine h.modifyLine ?_ ?_ ?_
  · intro j x _ hx
    exact h.coherent x (List.mem_of_getElem? hx)
  · intro x hx
    exact h.coherent x (List.mem_of_getElem? hx)
  · intro j x y hij hx hy vx vy
    exact (Level.tagsUnique_iff l).mp h.unique i j x y hij hx hy vx vy

/-- An install after a miss keeps the invariant (R75, R96, R97). `m'` is the store at the end of the access, `m` the one
the other lines agree with. -/
theorem LevelInv.install {c : Config} {n b : Nat} {m m' : Memory} {l : Level} {blk : Block} (h : LevelInv c n m l)
    (hb : b < c.storeBlocks) (hs : c.storeBlocks ≤ 2 ^ 30) (hf : l.find b = none) (hd : blk = m'.block b)
    (hother : ∀ j, j ≠ b → m'.block j = m.block j) (t : Counter) : LevelInv c n m' (l.install b blk t) := by
  have hne : ∀ {x : Line}, x ∈ l.lines → x.valid = true → x.tag ≠ tagOf b := by
    intro x hx vx e
    have := Level.find_none hf hx
    simp [Line.holds, vx, e] at this
  refine h.modifyLine ?_ ?_ ?_
  · intro j x _ hx vx
    have hm := List.mem_of_getElem? hx
    obtain ⟨hr, hdx⟩ := h.coherent x hm vx
    refine ⟨hr, ?_⟩
    rw [hdx, hother]
    intro e
    apply hne hm vx
    apply BitVec.eq_of_toNat_eq
    rw [e, tagOf_toNat (by omega)]
  · intro x _ _
    simp only [tagOf_toNat (by omega : b < 2 ^ 30)]
    exact ⟨hb, hd⟩
  · intro j x y _ _ hy _ vy
    exact (hne (List.mem_of_getElem? hy) vy).symm

/-- A word written in place keeps the invariant with the store after the write (R76, R97). -/
theorem LevelInv.writeInPlace {c : Config} {n a i : Nat} {m : Memory} {l : Level} (h : LevelInv c n m l) (hm : m.wf)
    (hb : blockIndex a < 2 ^ 30) (hf : l.find (blockIndex a) = some i) (v : Word) (t : Counter) :
    LevelInv c n (m.write a v) (l.writeInPlace i (wordOffset a) v t) := by
  obtain ⟨z, hz, vz, tz⟩ := Level.find_some hf
  refine h.modifyLine ?_ ?_ ?_
  · intro j x hij hx vx
    obtain ⟨hr, hdx⟩ := h.coherent x (List.mem_of_getElem? hx) vx
    refine ⟨hr, ?_⟩
    rw [hdx, Memory.block_write_other hm]
    intro e
    apply h.other_tag hf hij hx vx
    apply BitVec.eq_of_toNat_eq
    rw [e, tagOf_toNat hb]
  · intro x hx vx
    rw [hz] at hx
    cases hx
    obtain ⟨hr, hdx⟩ := h.coherent z (List.mem_of_getElem? hz) vx
    refine ⟨hr, ?_⟩
    simp only [tz, tagOf_toNat hb] at hdx ⊢
    rw [hdx, Memory.block_write_same hm]
  · intro j x y hij hx hy vx vy
    exact (Level.tagsUnique_iff l).mp h.unique i j x y hij hx hy vx vy

/-- A level that does not hold the written block keeps the invariant with the store after the write. -/
theorem LevelInv.write_elsewhere {c : Config} {n a : Nat} {m : Memory} {l : Level} (h : LevelInv c n m l) (hm : m.wf)
    (hb : blockIndex a < 2 ^ 30) (hf : l.find (blockIndex a) = none) (v : Word) : LevelInv c n (m.write a v) l where
  size := h.size
  unique := h.unique
  coherent := by
    intro x hx vx
    obtain ⟨hr, hdx⟩ := h.coherent x hx vx
    refine ⟨hr, ?_⟩
    rw [hdx, Memory.block_write_other hm]
    intro e
    have hno := Level.find_none hf hx
    have : x.tag = tagOf (blockIndex a) := by
      apply BitVec.eq_of_toNat_eq
      rw [e, tagOf_toNat hb]
    simp [Line.holds, vx, this] at hno

/-- Step 2 of the write path keeps the invariant (R86). -/
theorem LevelInv.writeAllocate {c : Config} {n a : Nat} {m : Memory} {l : Level} (h : LevelInv c n m l) (hm : m.wf)
    (hb : blockIndex a < c.storeBlocks) (hs : c.storeBlocks ≤ 2 ^ 30) (v : Word) (t : Counter) :
    LevelInv c n (m.write a v) (l.writeAllocate m (blockIndex a) (wordOffset a) v t) := by
  unfold Level.writeAllocate
  simp only [Level.probe_fst]
  have hfind : (l.probe (blockIndex a)).2.find (blockIndex a) = l.find (blockIndex a) := by simp [Level.find]
  split
  · rename_i i hi
    exact (h.probe _).writeInPlace hm (by omega) (by rw [hfind]; exact hi) v t
  · rename_i hi
    refine (h.probe _).install hb hs (by rw [hfind]; exact hi) ?_ ?_ t
    · exact (Memory.block_write_same hm a v).symm
    · intro j hj
      exact Memory.block_write_other hm v hj

/-- Steps 3 and 4 of the write path keep the invariant (R87, R88). -/
theorem LevelInv.writeNoAllocate {c : Config} {n a : Nat} {m : Memory} {l : Level} (h : LevelInv c n m l) (hm : m.wf)
    (hb : blockIndex a < 2 ^ 30) (v : Word) (t : Counter) :
    LevelInv c n (m.write a v) (l.writeNoAllocate (blockIndex a) (wordOffset a) v t) := by
  unfold Level.writeNoAllocate
  simp only [Level.probe_fst]
  have hfind : (l.probe (blockIndex a)).2.find (blockIndex a) = l.find (blockIndex a) := by simp [Level.find]
  split
  · rename_i i hi
    exact (h.probe _).writeInPlace hm hb (by rw [hfind]; exact hi) v t
  · rename_i hi
    exact (h.probe _).write_elsewhere hm hb (by rw [hfind]; exact hi) v

/-- An empty level has the invariant (R230). -/
theorem LevelInv.empty (c : Config) (n : Nat) (m : Memory) : LevelInv c n m (Level.empty n) where
  size := by simp [Level.empty]
  unique := by
    rw [Level.tagsUnique_iff]
    intro i j x y _ hx _ vx _
    have hm : x ∈ List.replicate n Line.empty := List.mem_of_getElem? hx
    rw [List.eq_of_mem_replicate hm] at vx
    simp [Line.empty] at vx
  coherent := by
    intro x hx vx
    rw [List.eq_of_mem_replicate hx] at vx
    simp [Line.empty] at vx

end Sys2Proof.Machine
end

