-- ==== Sys2Proof/Laws/Arbiter.lean ====
section
/-! SUPPORT. What the arbiter's two paths can do, and that they keep the memory side's invariant. -/

namespace Sys2Proof.Machine

@[simp] theorem Hierarchy.tick_l1 (h : Hierarchy) : h.tick.l1 = h.l1 := rfl
@[simp] theorem Hierarchy.tick_l2 (h : Hierarchy) : h.tick.l2 = h.l2 := rfl
@[simp] theorem Hierarchy.tick_l3 (h : Hierarchy) : h.tick.l3 = h.l3 := rfl
@[simp] theorem Hierarchy.tick_store (h : Hierarchy) : h.tick.store = h.store := rfl
@[simp] theorem Hierarchy.countHit_l1 (h : Hierarchy) : h.countHit.l1 = h.l1 := rfl
@[simp] theorem Hierarchy.countHit_l2 (h : Hierarchy) : h.countHit.l2 = h.l2 := rfl
@[simp] theorem Hierarchy.countHit_l3 (h : Hierarchy) : h.countHit.l3 = h.l3 := rfl
@[simp] theorem Hierarchy.countHit_store (h : Hierarchy) : h.countHit.store = h.store := rfl
@[simp] theorem Hierarchy.countMiss_l1 (h : Hierarchy) : h.countMiss.l1 = h.l1 := rfl
@[simp] theorem Hierarchy.countMiss_l2 (h : Hierarchy) : h.countMiss.l2 = h.l2 := rfl
@[simp] theorem Hierarchy.countMiss_l3 (h : Hierarchy) : h.countMiss.l3 = h.l3 := rfl
@[simp] theorem Hierarchy.countMiss_store (h : Hierarchy) : h.countMiss.store = h.store := rfl
@[simp] theorem Hierarchy.charge_l1 (n : Nat) (h : Hierarchy) : (h.charge n).l1 = h.l1 := rfl
@[simp] theorem Hierarchy.charge_l2 (n : Nat) (h : Hierarchy) : (h.charge n).l2 = h.l2 := rfl
@[simp] theorem Hierarchy.charge_l3 (n : Nat) (h : Hierarchy) : (h.charge n).l3 = h.l3 := rfl
@[simp] theorem Hierarchy.charge_store (n : Nat) (h : Hierarchy) : (h.charge n).store = h.store := rfl

/-- The time of an access: the clock after its first step (R79, R85). -/
abbrev Hierarchy.now (h : Hierarchy) : Counter := h.stats.globalTime + 1

/-- What a read can do: one of the four paths of R80 to R83. -/
theorem Hierarchy.read_cases (c : Config) (a : Nat) (h : Hierarchy) :
    let b := blockIndex a
    let k := wordOffset a
    (∃ i, h.l1.find b = some i ∧
      h.read c a = ((h.l1.dataAt i).get k,
        ({ h.tick with l1 := (h.l1.probe b).2.touch i h.now }.countHit).charge c.l1Lat)) ∨
    (∃ j, h.l1.find b = none ∧ h.l2.find b = some j ∧
      h.read c a = ((h.l2.dataAt j).get k,
        ({ h.tick with
            l1 := (h.l1.probe b).2.install b (h.l2.dataAt j) h.now
            l2 := (h.l2.probe b).2.touch j h.now }.countHit).charge (c.l1Lat + c.l2Lat))) ∨
    (∃ m, h.l1.find b = none ∧ h.l2.find b = none ∧ h.l3.find b = some m ∧
      h.read c a = ((h.l3.dataAt m).get k,
        ({ h.tick with
            l1 := (h.l1.probe b).2.install b (h.l3.dataAt m) h.now
            l2 := (h.l2.probe b).2.install b (h.l3.dataAt m) h.now
            l3 := (h.l3.probe b).2.touch m h.now }.countHit).charge (c.l1Lat + c.l2Lat + c.l3Lat))) ∨
    (h.l1.find b = none ∧ h.l2.find b = none ∧ h.l3.find b = none ∧
      h.read c a = ((h.store.block b).get k,
        ({ h.tick with
            l1 := (h.l1.probe b).2.install b (h.store.block b) h.now
            l2 := (h.l2.probe b).2.install b (h.store.block b) h.now
            l3 := (h.l3.probe b).2.install b (h.store.block b) h.now }.countMiss).charge
              (c.l1Lat + c.l2Lat + c.l3Lat + c.storeLat))) := by
  intro b k
  cases h1 : h.l1.find b with
  | some i => exact .inl ⟨i, rfl, by simp [Hierarchy.read, b, k, h1, Hierarchy.tick, Hierarchy.now]⟩
  | none =>
    cases h2 : h.l2.find b with
    | some j => exact .inr (.inl ⟨j, rfl, rfl, by simp [Hierarchy.read, b, k, h1, h2, Hierarchy.tick, Hierarchy.now]⟩)
    | none =>
      cases h3 : h.l3.find b with
      | some m => exact .inr (.inr (.inl ⟨m, rfl, rfl, rfl, by simp [Hierarchy.read, b, k, h1, h2, h3, Hierarchy.tick, Hierarchy.now]⟩))
      | none => exact .inr (.inr (.inr ⟨rfl, rfl, rfl, by simp [Hierarchy.read, b, k, h1, h2, h3, Hierarchy.tick, Hierarchy.now]⟩))

/-- A read leaves the store as it is (R79 to R83). -/
@[simp] theorem Hierarchy.read_store (c : Config) (a : Nat) (h : Hierarchy) : (h.read c a).2.store = h.store := by
  rcases Hierarchy.read_cases c a h with ⟨i, -, e⟩ | ⟨j, -, -, e⟩ | ⟨m, -, -, -, e⟩ | ⟨-, -, -, e⟩ <;> rw [e] <;> rfl

/-- A write sets the one word of the store (R89). -/
@[simp] theorem Hierarchy.write_store (c : Config) (a : Nat) (v : Word) (h : Hierarchy) :
    (h.write c a v).store = h.store.write a v := rfl

/-- The counters of a write: `total_hits` and `total_misses` do not change (R85, R90, R91). -/
theorem Hierarchy.write_stats (c : Config) (a : Nat) (v : Word) (h : Hierarchy) :
    (h.write c a v).stats =
      { h.stats with
        globalTime := h.stats.globalTime + 1
        totalAccesses := h.stats.totalAccesses + 1
        totalTime := h.stats.totalTime + BitVec.ofNat 64 (c.l1Lat + c.l2Lat + c.l3Lat + c.storeLat) } := rfl

/-! The invariant -/

/-- A configuration of R7 has fewer blocks than there are tags. -/
theorem storeBlocks_le {c : Config} (h : c.wellFormed = true) : c.storeBlocks ≤ 2 ^ 29 := by
  have : c.storeWords ≤ 2 ^ 31 := by
    simp only [Config.wellFormed, Config.storeFits, Bool.and_eq_true, decide_eq_true_eq] at h
    exact h.2.2
  unfold Config.storeBlocks
  simp only [wordsPerBlock]
  omega

/-- The block of a word of the store is a block of the store (R62, R7). -/
theorem blockIndex_lt {c : Config} (h : c.wellFormed = true) {a : Nat} (ha : a < c.storeWords) :
    blockIndex a < c.storeBlocks := by
  have h4 : c.storeWords % 4 = 0 := by
    simp only [Config.wellFormed, Config.storeFits, Bool.and_eq_true, decide_eq_true_eq, beq_iff_eq] at h
    exact h.2.1.2
  unfold Config.storeBlocks blockIndex
  simp only [wordsPerBlock]
  omega

theorem StoreInv.write {c : Config} {m : Memory} (h : StoreInv c m) {a : Nat} (ha : a < c.storeWords) (v : Word) :
    StoreInv c (m.write a v) where
  canonical := Memory.write_wf a v h.canonical
  inRange := by
    intro x hx
    rcases Memory.mem_write hx with e | hx
    · rw [e]; exact ha
    · exact h.inRange x hx

/-- A read returns the store's word, whatever the caches hold (R98). -/
theorem HierarchyInv.read_value {c : Config} {h : Hierarchy} (hc : c.wellFormed = true) (hi : HierarchyInv c h) {a : Nat}
    (ha : a < c.storeWords) : (h.read c a).1 = h.store.read a := by
  have hb : blockIndex a < 2 ^ 30 := by
    have := blockIndex_lt hc ha
    have := storeBlocks_le hc
    omega
  rw [← Memory.get_block_of_address]
  rcases Hierarchy.read_cases c a h with ⟨i, f, e⟩ | ⟨j, -, f, e⟩ | ⟨m, -, -, f, e⟩ | ⟨-, -, -, e⟩ <;> rw [e]
  · simp only [hi.l1.dataAt hb f]
  · simp only [hi.l2.dataAt hb f]
  · simp only [hi.l3.dataAt hb f]

/-- A read keeps the invariant (R96, R97). -/
theorem HierarchyInv.read {c : Config} {h : Hierarchy} (hc : c.wellFormed = true) (hi : HierarchyInv c h) {a : Nat}
    (ha : a < c.storeWords) : HierarchyInv c (h.read c a).2 := by
  have hb := blockIndex_lt hc ha
  have hs : c.storeBlocks ≤ 2 ^ 30 := by have := storeBlocks_le hc; omega
  have hb30 : blockIndex a < 2 ^ 30 := by omega
  have fprobe : ∀ (l : Level) (b : Nat), (l.probe b).2.find b = l.find b := by
    intro l b; simp [Level.find]
  rcases Hierarchy.read_cases c a h with ⟨i, f1, e⟩ | ⟨j, f1, f2, e⟩ | ⟨m, f1, f2, f3, e⟩ | ⟨f1, f2, f3, e⟩ <;> rw [e]
  · exact ⟨hi.store, (hi.l1.probe _).touch _ _, hi.l2, hi.l3⟩
  · exact ⟨hi.store, (hi.l1.probe _).install hb hs (by rw [fprobe]; exact f1) (hi.l2.dataAt hb30 f2) (fun _ _ => rfl) _,
      (hi.l2.probe _).touch _ _, hi.l3⟩
  · exact ⟨hi.store, (hi.l1.probe _).install hb hs (by rw [fprobe]; exact f1) (hi.l3.dataAt hb30 f3) (fun _ _ => rfl) _,
      (hi.l2.probe _).install hb hs (by rw [fprobe]; exact f2) (hi.l3.dataAt hb30 f3) (fun _ _ => rfl) _,
      (hi.l3.probe _).touch _ _⟩
  · exact ⟨hi.store, (hi.l1.probe _).install hb hs (by rw [fprobe]; exact f1) rfl (fun _ _ => rfl) _,
      (hi.l2.probe _).install hb hs (by rw [fprobe]; exact f2) rfl (fun _ _ => rfl) _,
      (hi.l3.probe _).install hb hs (by rw [fprobe]; exact f3) rfl (fun _ _ => rfl) _⟩

/-- A write keeps the invariant (R96, R97). -/
theorem HierarchyInv.write {c : Config} {h : Hierarchy} (hc : c.wellFormed = true) (hi : HierarchyInv c h) {a : Nat}
    (ha : a < c.storeWords) (v : Word) : HierarchyInv c (h.write c a v) := by
  have hb := blockIndex_lt hc ha
  have hs : c.storeBlocks ≤ 2 ^ 30 := by have := storeBlocks_le hc; omega
  have hb30 : blockIndex a < 2 ^ 30 := by omega
  exact ⟨hi.store.write ha v, hi.l1.writeAllocate hi.store.canonical hb hs v _,
    hi.l2.writeNoAllocate hi.store.canonical hb30 v _, hi.l3.writeNoAllocate hi.store.canonical hb30 v _⟩

/-- The statistics reset changes no line and no word (R93). -/
theorem HierarchyInv.resetStatistics {c : Config} {h : Hierarchy} (hi : HierarchyInv c h) :
    HierarchyInv c h.resetStatistics :=
  ⟨hi.store, hi.l1.of_lines rfl, hi.l2.of_lines rfl, hi.l3.of_lines rfl⟩

/-! The counters of every access -/

theorem AccessCountersAgree.read {h : Hierarchy} (hi : AccessCountersAgree h) (c : Config) (a : Nat) :
    AccessCountersAgree (h.read c a).2 := by
  obtain ⟨h1, h2⟩ := hi
  have hp := Level.probe_hits_add_misses h.l1 (blockIndex a)
  rcases Hierarchy.read_cases c a h with ⟨i, -, e⟩ | ⟨j, -, -, e⟩ | ⟨m, -, -, -, e⟩ | ⟨-, -, -, e⟩ <;> rw [e] <;>
    refine ⟨?_, ?_⟩ <;>
    simp only [Hierarchy.charge, Hierarchy.countHit, Hierarchy.countMiss, Hierarchy.tick, Level.touch_hits,
      Level.touch_misses, Level.install_hits, Level.install_misses, hp, h1, h2]

theorem AccessCountersAgree.write {h : Hierarchy} (hi : AccessCountersAgree h) (c : Config) (a : Nat) (v : Word) :
    AccessCountersAgree (h.write c a v) := by
  obtain ⟨h1, h2⟩ := hi
  have hp := Level.probe_hits_add_misses h.l1 (blockIndex a)
  have hw : ∀ t, (h.l1.writeAllocate h.store (blockIndex a) (wordOffset a) v t).hits +
      (h.l1.writeAllocate h.store (blockIndex a) (wordOffset a) v t).misses = h.l1.hits + h.l1.misses + 1 := by
    intro t
    unfold Level.writeAllocate
    rw [← hp]
    dsimp only
    split <;> rfl
  refine ⟨?_, ?_⟩
  · simp only [Hierarchy.write, Hierarchy.charge, Hierarchy.tick, h1]
  · simp only [Hierarchy.write, Hierarchy.charge, Hierarchy.tick]
    rw [hw, h2]

end Sys2Proof.Machine
end

