-- ==== Sys2Proof/Laws/Decode.lean ====
section
/-! SUPPORT. The four fields of a joined word (30_encoding.md rule R121). -/

namespace Sys2Proof

/-- Each bit of a joined word is a bit of one field (R121). -/
theorem joinFields_getLsbD (o a b d : Word) (i : Nat) :
    (joinFields o a b d).getLsbD i =
      if i < 32 then o.getLsbD i
      else if i < 64 then a.getLsbD (i - 32)
      else if i < 96 then b.getLsbD (i - 64)
      else d.getLsbD (i - 96) := by
  have e : (joinFields o a b d).getLsbD i = @BitVec.getLsbD (32 + 32 + 32 + 32) (d ++ b ++ a ++ o) i := rfl
  rw [e, BitVec.getLsbD_append, BitVec.getLsbD_append, BitVec.getLsbD_append]
  split_ifs <;> first | rfl | (exfalso; omega)

@[simp] theorem opcodeField_joinFields (o a b d : Word) : opcodeField (joinFields o a b d) = o := by
  apply BitVec.eq_of_getLsbD_eq
  intro i hi
  simp only [opcodeField, BitVec.getLsbD_extractLsb', joinFields_getLsbD, Nat.zero_add, hi, decide_true,
    Bool.true_and, if_true]

@[simp] theorem op1Field_joinFields (o a b d : Word) : op1Field (joinFields o a b d) = a := by
  apply BitVec.eq_of_getLsbD_eq
  intro i hi
  rw [op1Field, BitVec.getLsbD_extractLsb', joinFields_getLsbD, if_neg (by omega), if_pos (by omega)]
  simp [hi]

@[simp] theorem op2Field_joinFields (o a b d : Word) : op2Field (joinFields o a b d) = b := by
  apply BitVec.eq_of_getLsbD_eq
  intro i hi
  rw [op2Field, BitVec.getLsbD_extractLsb', joinFields_getLsbD, if_neg (by omega), if_neg (by omega),
    if_pos (by omega)]
  simp [hi]

@[simp] theorem op3Field_joinFields (o a b d : Word) : op3Field (joinFields o a b d) = d := by
  apply BitVec.eq_of_getLsbD_eq
  intro i hi
  rw [op3Field, BitVec.getLsbD_extractLsb', joinFields_getLsbD, if_neg (by omega), if_neg (by omega),
    if_neg (by omega)]
  simp [hi]

/-- A word is the join of its four fields (R121). -/
theorem joinFields_fields (w : InstrWord) : joinFields (opcodeField w) (op1Field w) (op2Field w) (op3Field w) = w := by
  apply BitVec.eq_of_getLsbD_eq
  intro i hi
  rw [joinFields_getLsbD]
  simp only [opcodeField, op1Field, op2Field, op3Field, BitVec.getLsbD_extractLsb']
  split_ifs with h1 h2 h3
  · simp [h1]
  · simp [show i - 32 < 32 by omega, show 32 + (i - 32) = i by omega]
  · simp [show i - 64 < 32 by omega, show 64 + (i - 64) = i by omega]
  · simp [show i - 96 < 32 by omega, show 96 + (i - 96) = i by omega]

end Sys2Proof
end

