-- ==== Sys2Proof/Laws/State.lean ====
section
/-! SUPPORT. What each update of the state does to each field: one lemma a field and update, true by definition. -/

namespace Sys2Proof.Machine

/-! `setAc` -/

@[simp] theorem setAc_cfg (v : Word) (s : State) : (setAc v s).cfg = s.cfg := rfl
@[simp] theorem setAc_program (v : Word) (s : State) : (setAc v s).program = s.program := rfl
@[simp] theorem setAc_progLen (v : Word) (s : State) : (setAc v s).progLen = s.progLen := rfl
@[simp] theorem setAc_pc (v : Word) (s : State) : (setAc v s).pc = s.pc := rfl
@[simp] theorem setAc_ir (v : Word) (s : State) : (setAc v s).ir = s.ir := rfl
@[simp] theorem setAc_ac (v : Word) (s : State) : (setAc v s).ac = v := rfl
@[simp] theorem setAc_r1 (v : Word) (s : State) : (setAc v s).r1 = s.r1 := rfl
@[simp] theorem setAc_r2 (v : Word) (s : State) : (setAc v s).r2 = s.r2 := rfl
@[simp] theorem setAc_fsm (v : Word) (s : State) : (setAc v s).fsm = s.fsm := rfl
@[simp] theorem setAc_divz (v : Word) (s : State) : (setAc v s).divz = s.divz := rfl
@[simp] theorem setAc_divzCount (v : Word) (s : State) : (setAc v s).divzCount = s.divzCount := rfl
@[simp] theorem setAc_fault (v : Word) (s : State) : (setAc v s).fault = s.fault := rfl
@[simp] theorem setAc_mem (v : Word) (s : State) : (setAc v s).mem = s.mem := rfl
@[simp] theorem setAc_events (v : Word) (s : State) : (setAc v s).events = s.events := rfl

/-! `setIr` -/

@[simp] theorem setIr_cfg (v : Word) (s : State) : (setIr v s).cfg = s.cfg := rfl
@[simp] theorem setIr_program (v : Word) (s : State) : (setIr v s).program = s.program := rfl
@[simp] theorem setIr_progLen (v : Word) (s : State) : (setIr v s).progLen = s.progLen := rfl
@[simp] theorem setIr_pc (v : Word) (s : State) : (setIr v s).pc = s.pc := rfl
@[simp] theorem setIr_ir (v : Word) (s : State) : (setIr v s).ir = v := rfl
@[simp] theorem setIr_ac (v : Word) (s : State) : (setIr v s).ac = s.ac := rfl
@[simp] theorem setIr_r1 (v : Word) (s : State) : (setIr v s).r1 = s.r1 := rfl
@[simp] theorem setIr_r2 (v : Word) (s : State) : (setIr v s).r2 = s.r2 := rfl
@[simp] theorem setIr_fsm (v : Word) (s : State) : (setIr v s).fsm = s.fsm := rfl
@[simp] theorem setIr_divz (v : Word) (s : State) : (setIr v s).divz = s.divz := rfl
@[simp] theorem setIr_divzCount (v : Word) (s : State) : (setIr v s).divzCount = s.divzCount := rfl
@[simp] theorem setIr_fault (v : Word) (s : State) : (setIr v s).fault = s.fault := rfl
@[simp] theorem setIr_mem (v : Word) (s : State) : (setIr v s).mem = s.mem := rfl
@[simp] theorem setIr_events (v : Word) (s : State) : (setIr v s).events = s.events := rfl

/-! `setPc` -/

@[simp] theorem setPc_cfg (v : Word) (s : State) : (setPc v s).cfg = s.cfg := rfl
@[simp] theorem setPc_program (v : Word) (s : State) : (setPc v s).program = s.program := rfl
@[simp] theorem setPc_progLen (v : Word) (s : State) : (setPc v s).progLen = s.progLen := rfl
@[simp] theorem setPc_pc (v : Word) (s : State) : (setPc v s).pc = v := rfl
@[simp] theorem setPc_ir (v : Word) (s : State) : (setPc v s).ir = s.ir := rfl
@[simp] theorem setPc_ac (v : Word) (s : State) : (setPc v s).ac = s.ac := rfl
@[simp] theorem setPc_r1 (v : Word) (s : State) : (setPc v s).r1 = s.r1 := rfl
@[simp] theorem setPc_r2 (v : Word) (s : State) : (setPc v s).r2 = s.r2 := rfl
@[simp] theorem setPc_fsm (v : Word) (s : State) : (setPc v s).fsm = s.fsm := rfl
@[simp] theorem setPc_divz (v : Word) (s : State) : (setPc v s).divz = s.divz := rfl
@[simp] theorem setPc_divzCount (v : Word) (s : State) : (setPc v s).divzCount = s.divzCount := rfl
@[simp] theorem setPc_fault (v : Word) (s : State) : (setPc v s).fault = s.fault := rfl
@[simp] theorem setPc_mem (v : Word) (s : State) : (setPc v s).mem = s.mem := rfl
@[simp] theorem setPc_events (v : Word) (s : State) : (setPc v s).events = s.events := rfl

/-! `setFsm` -/

@[simp] theorem setFsm_cfg (f : FsmState) (s : State) : (setFsm f s).cfg = s.cfg := rfl
@[simp] theorem setFsm_program (f : FsmState) (s : State) : (setFsm f s).program = s.program := rfl
@[simp] theorem setFsm_progLen (f : FsmState) (s : State) : (setFsm f s).progLen = s.progLen := rfl
@[simp] theorem setFsm_pc (f : FsmState) (s : State) : (setFsm f s).pc = s.pc := rfl
@[simp] theorem setFsm_ir (f : FsmState) (s : State) : (setFsm f s).ir = s.ir := rfl
@[simp] theorem setFsm_ac (f : FsmState) (s : State) : (setFsm f s).ac = s.ac := rfl
@[simp] theorem setFsm_r1 (f : FsmState) (s : State) : (setFsm f s).r1 = s.r1 := rfl
@[simp] theorem setFsm_r2 (f : FsmState) (s : State) : (setFsm f s).r2 = s.r2 := rfl
@[simp] theorem setFsm_fsm (f : FsmState) (s : State) : (setFsm f s).fsm = f := rfl
@[simp] theorem setFsm_divz (f : FsmState) (s : State) : (setFsm f s).divz = s.divz := rfl
@[simp] theorem setFsm_divzCount (f : FsmState) (s : State) : (setFsm f s).divzCount = s.divzCount := rfl
@[simp] theorem setFsm_fault (f : FsmState) (s : State) : (setFsm f s).fault = s.fault := rfl
@[simp] theorem setFsm_mem (f : FsmState) (s : State) : (setFsm f s).mem = s.mem := rfl
@[simp] theorem setFsm_events (f : FsmState) (s : State) : (setFsm f s).events = s.events := rfl

/-! `setMem` -/

@[simp] theorem setMem_cfg (h : Hierarchy) (s : State) : (setMem h s).cfg = s.cfg := rfl
@[simp] theorem setMem_program (h : Hierarchy) (s : State) : (setMem h s).program = s.program := rfl
@[simp] theorem setMem_progLen (h : Hierarchy) (s : State) : (setMem h s).progLen = s.progLen := rfl
@[simp] theorem setMem_pc (h : Hierarchy) (s : State) : (setMem h s).pc = s.pc := rfl
@[simp] theorem setMem_ir (h : Hierarchy) (s : State) : (setMem h s).ir = s.ir := rfl
@[simp] theorem setMem_ac (h : Hierarchy) (s : State) : (setMem h s).ac = s.ac := rfl
@[simp] theorem setMem_r1 (h : Hierarchy) (s : State) : (setMem h s).r1 = s.r1 := rfl
@[simp] theorem setMem_r2 (h : Hierarchy) (s : State) : (setMem h s).r2 = s.r2 := rfl
@[simp] theorem setMem_fsm (h : Hierarchy) (s : State) : (setMem h s).fsm = s.fsm := rfl
@[simp] theorem setMem_divz (h : Hierarchy) (s : State) : (setMem h s).divz = s.divz := rfl
@[simp] theorem setMem_divzCount (h : Hierarchy) (s : State) : (setMem h s).divzCount = s.divzCount := rfl
@[simp] theorem setMem_fault (h : Hierarchy) (s : State) : (setMem h s).fault = s.fault := rfl
@[simp] theorem setMem_mem (h : Hierarchy) (s : State) : (setMem h s).mem = h := rfl
@[simp] theorem setMem_events (h : Hierarchy) (s : State) : (setMem h s).events = s.events := rfl

/-! `emit` -/

@[simp] theorem emit_cfg (e : Event) (s : State) : (emit e s).cfg = s.cfg := rfl
@[simp] theorem emit_program (e : Event) (s : State) : (emit e s).program = s.program := rfl
@[simp] theorem emit_progLen (e : Event) (s : State) : (emit e s).progLen = s.progLen := rfl
@[simp] theorem emit_pc (e : Event) (s : State) : (emit e s).pc = s.pc := rfl
@[simp] theorem emit_ir (e : Event) (s : State) : (emit e s).ir = s.ir := rfl
@[simp] theorem emit_ac (e : Event) (s : State) : (emit e s).ac = s.ac := rfl
@[simp] theorem emit_r1 (e : Event) (s : State) : (emit e s).r1 = s.r1 := rfl
@[simp] theorem emit_r2 (e : Event) (s : State) : (emit e s).r2 = s.r2 := rfl
@[simp] theorem emit_fsm (e : Event) (s : State) : (emit e s).fsm = s.fsm := rfl
@[simp] theorem emit_divz (e : Event) (s : State) : (emit e s).divz = s.divz := rfl
@[simp] theorem emit_divzCount (e : Event) (s : State) : (emit e s).divzCount = s.divzCount := rfl
@[simp] theorem emit_fault (e : Event) (s : State) : (emit e s).fault = s.fault := rfl
@[simp] theorem emit_mem (e : Event) (s : State) : (emit e s).mem = s.mem := rfl
@[simp] theorem emit_events (e : Event) (s : State) : (emit e s).events = s.events ++ [e] := rfl

/-! `advance` -/

@[simp] theorem advance_cfg (s : State) : (advance s).cfg = s.cfg := rfl
@[simp] theorem advance_program (s : State) : (advance s).program = s.program := rfl
@[simp] theorem advance_progLen (s : State) : (advance s).progLen = s.progLen := rfl
@[simp] theorem advance_pc (s : State) : (advance s).pc = s.pc + 1 := rfl
@[simp] theorem advance_ir (s : State) : (advance s).ir = s.ir := rfl
@[simp] theorem advance_ac (s : State) : (advance s).ac = s.ac := rfl
@[simp] theorem advance_r1 (s : State) : (advance s).r1 = s.r1 := rfl
@[simp] theorem advance_r2 (s : State) : (advance s).r2 = s.r2 := rfl
@[simp] theorem advance_fsm (s : State) : (advance s).fsm = s.fsm := rfl
@[simp] theorem advance_divz (s : State) : (advance s).divz = s.divz := rfl
@[simp] theorem advance_divzCount (s : State) : (advance s).divzCount = s.divzCount := rfl
@[simp] theorem advance_fault (s : State) : (advance s).fault = s.fault := rfl
@[simp] theorem advance_mem (s : State) : (advance s).mem = s.mem := rfl
@[simp] theorem advance_events (s : State) : (advance s).events = s.events := rfl

/-! `redirect` -/

@[simp] theorem redirect_cfg (p : Word) (s : State) : (redirect p s).cfg = s.cfg := rfl
@[simp] theorem redirect_program (p : Word) (s : State) : (redirect p s).program = s.program := rfl
@[simp] theorem redirect_progLen (p : Word) (s : State) : (redirect p s).progLen = s.progLen := rfl
@[simp] theorem redirect_pc (p : Word) (s : State) : (redirect p s).pc = p - 1 := rfl
@[simp] theorem redirect_ir (p : Word) (s : State) : (redirect p s).ir = s.ir := rfl
@[simp] theorem redirect_ac (p : Word) (s : State) : (redirect p s).ac = s.ac := rfl
@[simp] theorem redirect_r1 (p : Word) (s : State) : (redirect p s).r1 = s.r1 := rfl
@[simp] theorem redirect_r2 (p : Word) (s : State) : (redirect p s).r2 = s.r2 := rfl
@[simp] theorem redirect_fsm (p : Word) (s : State) : (redirect p s).fsm = s.fsm := rfl
@[simp] theorem redirect_divz (p : Word) (s : State) : (redirect p s).divz = s.divz := rfl
@[simp] theorem redirect_divzCount (p : Word) (s : State) : (redirect p s).divzCount = s.divzCount := rfl
@[simp] theorem redirect_fault (p : Word) (s : State) : (redirect p s).fault = s.fault := rfl
@[simp] theorem redirect_mem (p : Word) (s : State) : (redirect p s).mem = s.mem := rfl
@[simp] theorem redirect_events (p : Word) (s : State) : (redirect p s).events = s.events := rfl

/-! `raise` -/

@[simp] theorem raise_cfg (e : Cause) (i : Word) (s : State) : (raise e i s).cfg = s.cfg := rfl
@[simp] theorem raise_program (e : Cause) (i : Word) (s : State) : (raise e i s).program = s.program := rfl
@[simp] theorem raise_progLen (e : Cause) (i : Word) (s : State) : (raise e i s).progLen = s.progLen := rfl
@[simp] theorem raise_pc (e : Cause) (i : Word) (s : State) : (raise e i s).pc = s.pc := rfl
@[simp] theorem raise_ir (e : Cause) (i : Word) (s : State) : (raise e i s).ir = s.ir := rfl
@[simp] theorem raise_ac (e : Cause) (i : Word) (s : State) : (raise e i s).ac = s.ac := rfl
@[simp] theorem raise_r1 (e : Cause) (i : Word) (s : State) : (raise e i s).r1 = s.r1 := rfl
@[simp] theorem raise_r2 (e : Cause) (i : Word) (s : State) : (raise e i s).r2 = s.r2 := rfl
@[simp] theorem raise_fsm (e : Cause) (i : Word) (s : State) : (raise e i s).fsm = .faulted := rfl
@[simp] theorem raise_divz (e : Cause) (i : Word) (s : State) : (raise e i s).divz = s.divz := rfl
@[simp] theorem raise_divzCount (e : Cause) (i : Word) (s : State) : (raise e i s).divzCount = s.divzCount := rfl
@[simp] theorem raise_fault (e : Cause) (i : Word) (s : State) : (raise e i s).fault = ⟨e.code, s.pc, i⟩ := rfl
@[simp] theorem raise_mem (e : Cause) (i : Word) (s : State) : (raise e i s).mem = s.mem := rfl
@[simp] theorem raise_events (e : Cause) (i : Word) (s : State) : (raise e i s).events = s.events ++ [.fault e i] := rfl

/-! `warnDivisionByZero` -/

@[simp] theorem warnDivisionByZero_cfg (s : State) : (warnDivisionByZero s).cfg = s.cfg := rfl
@[simp] theorem warnDivisionByZero_program (s : State) : (warnDivisionByZero s).program = s.program := rfl
@[simp] theorem warnDivisionByZero_progLen (s : State) : (warnDivisionByZero s).progLen = s.progLen := rfl
@[simp] theorem warnDivisionByZero_pc (s : State) : (warnDivisionByZero s).pc = s.pc := rfl
@[simp] theorem warnDivisionByZero_ir (s : State) : (warnDivisionByZero s).ir = s.ir := rfl
@[simp] theorem warnDivisionByZero_ac (s : State) : (warnDivisionByZero s).ac = s.ac := rfl
@[simp] theorem warnDivisionByZero_r1 (s : State) : (warnDivisionByZero s).r1 = s.r1 := rfl
@[simp] theorem warnDivisionByZero_r2 (s : State) : (warnDivisionByZero s).r2 = s.r2 := rfl
@[simp] theorem warnDivisionByZero_fsm (s : State) : (warnDivisionByZero s).fsm = s.fsm := rfl
@[simp] theorem warnDivisionByZero_divz (s : State) : (warnDivisionByZero s).divz = true := rfl
@[simp] theorem warnDivisionByZero_divzCount (s : State) : (warnDivisionByZero s).divzCount = s.divzCount + 1 := rfl
@[simp] theorem warnDivisionByZero_fault (s : State) : (warnDivisionByZero s).fault = s.fault := rfl
@[simp] theorem warnDivisionByZero_mem (s : State) : (warnDivisionByZero s).mem = s.mem := rfl
@[simp] theorem warnDivisionByZero_events (s : State) : (warnDivisionByZero s).events = s.events ++ [.warn .divisionByZero s.pc] := rfl

/-! `startRun` -/

@[simp] theorem startRun_cfg (w : List InstrWord) (n : Nat) (s : State) : (startRun w n s).cfg = s.cfg := rfl
@[simp] theorem startRun_program (w : List InstrWord) (n : Nat) (s : State) : (startRun w n s).program = w := rfl
@[simp] theorem startRun_progLen (w : List InstrWord) (n : Nat) (s : State) : (startRun w n s).progLen = n := rfl
@[simp] theorem startRun_pc (w : List InstrWord) (n : Nat) (s : State) : (startRun w n s).pc = 0 := rfl
@[simp] theorem startRun_ir (w : List InstrWord) (n : Nat) (s : State) : (startRun w n s).ir = 0 := rfl
@[simp] theorem startRun_ac (w : List InstrWord) (n : Nat) (s : State) : (startRun w n s).ac = 0 := rfl
@[simp] theorem startRun_r1 (w : List InstrWord) (n : Nat) (s : State) : (startRun w n s).r1 = 0 := rfl
@[simp] theorem startRun_r2 (w : List InstrWord) (n : Nat) (s : State) : (startRun w n s).r2 = 0 := rfl
@[simp] theorem startRun_fsm (w : List InstrWord) (n : Nat) (s : State) : (startRun w n s).fsm = .run := rfl
@[simp] theorem startRun_divz (w : List InstrWord) (n : Nat) (s : State) : (startRun w n s).divz = false := rfl
@[simp] theorem startRun_divzCount (w : List InstrWord) (n : Nat) (s : State) : (startRun w n s).divzCount = 0 := rfl
@[simp] theorem startRun_fault (w : List InstrWord) (n : Nat) (s : State) : (startRun w n s).fault = s.fault := rfl
@[simp] theorem startRun_mem (w : List InstrWord) (n : Nat) (s : State) : (startRun w n s).mem = s.mem := rfl
@[simp] theorem startRun_events (w : List InstrWord) (n : Nat) (s : State) : (startRun w n s).events = s.events := rfl

/-! `setReg`, whose destination is one of two registers -/

@[simp] theorem setReg_cfg (r : Reg) (v : Word) (s : State) : (setReg r v s).cfg = s.cfg := by cases r <;> rfl
@[simp] theorem setReg_program (r : Reg) (v : Word) (s : State) : (setReg r v s).program = s.program := by cases r <;> rfl
@[simp] theorem setReg_progLen (r : Reg) (v : Word) (s : State) : (setReg r v s).progLen = s.progLen := by cases r <;> rfl
@[simp] theorem setReg_pc (r : Reg) (v : Word) (s : State) : (setReg r v s).pc = s.pc := by cases r <;> rfl
@[simp] theorem setReg_ir (r : Reg) (v : Word) (s : State) : (setReg r v s).ir = s.ir := by cases r <;> rfl
@[simp] theorem setReg_ac (r : Reg) (v : Word) (s : State) : (setReg r v s).ac = s.ac := by cases r <;> rfl
@[simp] theorem setReg_fsm (r : Reg) (v : Word) (s : State) : (setReg r v s).fsm = s.fsm := by cases r <;> rfl
@[simp] theorem setReg_divz (r : Reg) (v : Word) (s : State) : (setReg r v s).divz = s.divz := by cases r <;> rfl
@[simp] theorem setReg_divzCount (r : Reg) (v : Word) (s : State) : (setReg r v s).divzCount = s.divzCount := by cases r <;> rfl
@[simp] theorem setReg_fault (r : Reg) (v : Word) (s : State) : (setReg r v s).fault = s.fault := by cases r <;> rfl
@[simp] theorem setReg_mem (r : Reg) (v : Word) (s : State) : (setReg r v s).mem = s.mem := by cases r <;> rfl
@[simp] theorem setReg_events (r : Reg) (v : Word) (s : State) : (setReg r v s).events = s.events := by cases r <;> rfl
@[simp] theorem setReg_r1_r1 (v : Word) (s : State) : (setReg .r1 v s).r1 = v := rfl
@[simp] theorem setReg_r1_r2 (v : Word) (s : State) : (setReg .r1 v s).r2 = s.r2 := rfl
@[simp] theorem setReg_r2_r1 (v : Word) (s : State) : (setReg .r2 v s).r1 = s.r1 := rfl
@[simp] theorem setReg_r2_r2 (v : Word) (s : State) : (setReg .r2 v s).r2 = v := rfl

theorem getReg_setReg (r q : Reg) (v : Word) (s : State) :
    getReg q (setReg r v s) = if q = r then v else getReg q s := by
  cases r <;> cases q <;> rfl

@[simp] theorem getReg_setReg_same (r : Reg) (v : Word) (s : State) : getReg r (setReg r v s) = v := by
  cases r <;> rfl

/-! Reading an operand register past an update that does not write one -/

@[simp] theorem getReg_setAc (r : Reg) (v : Word) (s : State) : getReg r (setAc v s) = getReg r s := by cases r <;> rfl
@[simp] theorem getReg_setIr (r : Reg) (v : Word) (s : State) : getReg r (setIr v s) = getReg r s := by cases r <;> rfl
@[simp] theorem getReg_setPc (r : Reg) (v : Word) (s : State) : getReg r (setPc v s) = getReg r s := by cases r <;> rfl
@[simp] theorem getReg_setFsm (r : Reg) (f : FsmState) (s : State) : getReg r (setFsm f s) = getReg r s := by cases r <;> rfl
@[simp] theorem getReg_setMem (r : Reg) (h : Hierarchy) (s : State) : getReg r (setMem h s) = getReg r s := by cases r <;> rfl
@[simp] theorem getReg_emit (r : Reg) (e : Event) (s : State) : getReg r (emit e s) = getReg r s := by cases r <;> rfl
@[simp] theorem getReg_advance (r : Reg) (s : State) : getReg r (advance s) = getReg r s := by cases r <;> rfl
@[simp] theorem getReg_redirect (r : Reg) (p : Word) (s : State) : getReg r (redirect p s) = getReg r s := by cases r <;> rfl
@[simp] theorem getReg_raise (r : Reg) (e : Cause) (i : Word) (s : State) : getReg r (raise e i s) = getReg r s := by cases r <;> rfl
@[simp] theorem getReg_warnDivisionByZero (r : Reg) (s : State) : getReg r (warnDivisionByZero s) = getReg r s := by cases r <;> rfl

end Sys2Proof.Machine
end

