-- ==== Sys2Proof/Laws/Ops.lean ====
section
/-! SUPPORT. What the shared operations and the shared parts of the meanings can do. -/

namespace Sys2Proof.Machine

/-! The cause codes (R200) -/

@[simp] theorem Cause.code_outOfBounds : Cause.outOfBounds.code = 1 := rfl
@[simp] theorem Cause.code_divisionByZero : Cause.divisionByZero.code = 2 := rfl
@[simp] theorem Cause.code_illegalOpcode : Cause.illegalOpcode.code = 3 := rfl
@[simp] theorem Cause.code_illegalRegisterSelector : Cause.illegalRegisterSelector.code = 4 := rfl

/-- When an `addr` operand names a word, and which (R61, R62). -/
theorem wordAddress_eq_some {c : Config} {a : Word} {n : Nat} :
    wordAddress c a = some n ↔ (0 ≤ s32 a ∧ s32 a < c.storeWords) ∧ n = addressOf a := by
  unfold wordAddress addressOf
  split
  · rename_i h
    constructor
    · intro e; exact ⟨h, (Option.some.inj e).symm⟩
    · intro e; rw [e.2]
  · rename_i h
    constructor
    · intro e; simp at e
    · intro e; exact absurd e.1 h

theorem wordAddress_of_valid {s : State} {a : Word} (h : s.validAddress a) :
    wordAddress s.cfg a = some (addressOf a) := wordAddress_eq_some.mpr ⟨h, rfl⟩

theorem wordAddress_of_invalid {s : State} {a : Word} (h : ¬ s.validAddress a) : wordAddress s.cfg a = none := by
  unfold wordAddress
  exact if_neg h

theorem addressOf_lt {s : State} {a : Word} (h : s.validAddress a) : addressOf a < s.cfg.storeWords := by
  obtain ⟨h0, h1⟩ := h
  unfold addressOf
  omega

/-- What a successful read access does: the memory side takes the read path and nothing else changes (R78 to R84). -/
theorem memRead_eq_some {a : Word} {s t : State} {v : Word} :
    memRead a s = some (v, t) ↔
      s.validAddress a ∧ v = (s.mem.read s.cfg (addressOf a)).1 ∧
        t = setMem (s.mem.read s.cfg (addressOf a)).2 s := by
  unfold memRead
  by_cases h : s.validAddress a
  · rw [wordAddress_of_valid h]
    constructor
    · intro e
      obtain ⟨rfl, rfl⟩ := Prod.mk.inj (Option.some.inj e)
      exact ⟨h, rfl, rfl⟩
    · rintro ⟨-, rfl, rfl⟩
      rfl
  · rw [wordAddress_of_invalid h]
    constructor
    · intro e; simp at e
    · intro e; exact absurd e.1 h

theorem memRead_of_valid {a : Word} {s : State} (h : s.validAddress a) :
    memRead a s =
      some ((s.mem.read s.cfg (addressOf a)).1, setMem (s.mem.read s.cfg (addressOf a)).2 s) :=
  memRead_eq_some.mpr ⟨h, rfl, rfl⟩

/-- A read access raises OutOfBounds exactly at an invalid address (R61, R78). -/
theorem memRead_eq_none {a : Word} {s : State} : memRead a s = none ↔ ¬ s.validAddress a := by
  by_cases h : s.validAddress a
  · simp [memRead_of_valid h, h]
  · simp [memRead, wordAddress_of_invalid h, h]

/-- What a successful write access does (R78, R85 to R91). -/
theorem memWrite_eq_some {a v : Word} {s t : State} :
    memWrite a v s = some t ↔ s.validAddress a ∧ t = setMem (s.mem.write s.cfg (addressOf a) v) s := by
  unfold memWrite
  by_cases h : s.validAddress a
  · rw [wordAddress_of_valid h]
    simp [h, eq_comm]
  · rw [wordAddress_of_invalid h]
    simp [h]

theorem memWrite_of_valid {a : Word} {s : State} (h : s.validAddress a) (v : Word) :
    memWrite a v s = some (setMem (s.mem.write s.cfg (addressOf a) v) s) :=
  memWrite_eq_some.mpr ⟨h, rfl⟩

/-- A write access raises OutOfBounds exactly at an invalid address (R61, R78). -/
theorem memWrite_eq_none {a v : Word} {s : State} : memWrite a v s = none ↔ ¬ s.validAddress a := by
  by_cases h : s.validAddress a
  · simp [memWrite_of_valid h, h]
  · simp [memWrite, wordAddress_of_invalid h, h]

/-- Which selectors name a register (R130). -/
theorem selectReg_cases (sel : Word) :
    (s32 sel = 1 ∧ selectReg sel = some .r1) ∨ (s32 sel = 2 ∧ selectReg sel = some .r2) ∨
      (s32 sel ≠ 1 ∧ s32 sel ≠ 2 ∧ selectReg sel = none) := by
  unfold selectReg
  by_cases h1 : s32 sel = 1
  · exact .inl ⟨h1, by simp [h1]⟩
  · by_cases h2 : s32 sel = 2
    · exact .inr (.inl ⟨h2, by simp [h2]⟩)
    · exact .inr (.inr ⟨h1, h2, by simp [h1, h2]⟩)

/-- Redirecting and advancing leaves PC at the target, wrap included (R150, R191). -/
theorem advance_redirect (p : Word) (s : State) : advance (redirect p s) = setPc p s := by
  simp [advance, redirect, setPc]

/-- Where a jump goes (R191). -/
theorem jumpWhen_eq (c : Bool) (p : Word) (s : State) :
    jumpWhen c p s = setPc (if c then p else s.pc + 1) s := by
  unfold jumpWhen
  cases c
  · rfl
  · simp [advance_redirect]

/-- What the arithmetic sequence can do: stop at the first source, stop at the second, or finish (R165). -/
theorem arith_cases (op : AluOp) (x y d : Word) (s : State) :
    (¬ s.validAddress x ∧ arith op x y d s = raise .outOfBounds x s) ∨
    (∃ v s1, memRead x s = some (v, s1) ∧ ¬ s.validAddress y ∧
      arith op x y d s = raise .outOfBounds y s1) ∨
    (∃ v s1 w s2, memRead x s = some (v, s1) ∧ memRead y s1 = some (w, s2) ∧
      arith op x y d s = finishArith d (alu op v w) s2) := by
  unfold arith
  by_cases hx : s.validAddress x
  · rw [memRead_of_valid hx]
    simp only
    by_cases hy : s.validAddress y
    · have hy' : (setMem (s.mem.read s.cfg (addressOf x)).2 s).validAddress y := hy
      rw [memRead_of_valid hy']
      exact .inr (.inr ⟨_, _, _, _, rfl, memRead_of_valid hy', rfl⟩)
    · have hy' : ¬ (setMem (s.mem.read s.cfg (addressOf x)).2 s).validAddress y := hy
      rw [memRead_eq_none.mpr hy']
      exact .inr (.inl ⟨_, _, rfl, hy, rfl⟩)
  · rw [memRead_eq_none.mpr hx]
    exact .inl ⟨hx, rfl⟩

/-- What the end of the sequence can do: warn and hold, store the result, or stop at the destination (R165, R170). -/
theorem finishArith_cases (d : Word) (r : AluResult) (s : State) :
    (r.divz = true ∧ finishArith d r s = warnDivisionByZero (setAc 0 s)) ∨
    (r.divz = false ∧ s.validAddress d ∧
      finishArith d r s =
        advance (setMem (s.mem.write s.cfg (addressOf d) r.result) (setAc r.result s))) ∨
    (r.divz = false ∧ ¬ s.validAddress d ∧
      finishArith d r s = raise .outOfBounds d (setAc r.result s)) := by
  unfold finishArith storeResult
  cases hz : r.divz
  · by_cases hd : s.validAddress d
    · have hd' : (setAc r.result s).validAddress d := hd
      simp only [memWrite_of_valid hd']
      exact .inr (.inl ⟨trivial, hd, rfl⟩)
    · have hd' : ¬ (setAc r.result s).validAddress d := hd
      simp only [memWrite_eq_none.mpr hd']
      exact .inr (.inr ⟨trivial, hd, rfl⟩)
  · exact .inl ⟨rfl, rfl⟩

end Sys2Proof.Machine
end

