-- ==== Sys2Proof/Laws/PerInstr.lean ====
section
/-! SUPPORT. The family of statements made for every constructor of `Instr`: where the encoder puts its fields
(30_encoding.md rules R121, R122, R124). -/

namespace Sys2Proof.Laws

/-- The four fields of an instruction's word are its opcode number and its operands, and the number is one of the
thirteen. -/
def EncodedFields.Statement (i : Instr) : Prop :=
  opcodeField (encode i) = opcodeOf i ∧ op1Field (encode i) = (operandsOf i).1 ∧
    op2Field (encode i) = (operandsOf i).2.1 ∧ op3Field (encode i) = (operandsOf i).2.2 ∧ u32 (opcodeOf i) < 13

theorem EncodedFields.of_opcode {i : Instr} (w : Word) (hw : u32 w < 13) (h : opcodeOf i = w) :
    EncodedFields.Statement i := by
  simp only [EncodedFields.Statement, encode, opcodeField_joinFields, op1Field_joinFields, op2Field_joinFields,
    op3Field_joinFields, h, hw, and_self]

theorem EncodedFields.halt : EncodedFields.Statement .halt := EncodedFields.of_opcode 0 (by decide) rfl
theorem EncodedFields.add (a b d : Word) : EncodedFields.Statement (.add a b d) := EncodedFields.of_opcode 1 (by decide) rfl
theorem EncodedFields.sub (a b d : Word) : EncodedFields.Statement (.sub a b d) := EncodedFields.of_opcode 2 (by decide) rfl
theorem EncodedFields.mul (a b d : Word) : EncodedFields.Statement (.mul a b d) := EncodedFields.of_opcode 3 (by decide) rfl
theorem EncodedFields.div (a b d : Word) : EncodedFields.Statement (.div a b d) := EncodedFields.of_opcode 4 (by decide) rfl
theorem EncodedFields.copyRegToMem (r d : Word) : EncodedFields.Statement (.copyRegToMem r d) :=
  EncodedFields.of_opcode 5 (by decide) rfl
theorem EncodedFields.copyMemToReg (r a : Word) : EncodedFields.Statement (.copyMemToReg r a) :=
  EncodedFields.of_opcode 6 (by decide) rfl
theorem EncodedFields.copyImmediateToReg (r n : Word) : EncodedFields.Statement (.copyImmediateToReg r n) :=
  EncodedFields.of_opcode 7 (by decide) rfl
theorem EncodedFields.jump (p : Word) : EncodedFields.Statement (.jump p) := EncodedFields.of_opcode 8 (by decide) rfl
theorem EncodedFields.jumpIfZero (p : Word) : EncodedFields.Statement (.jumpIfZero p) :=
  EncodedFields.of_opcode 9 (by decide) rfl
theorem EncodedFields.jumpIfNonzero (p : Word) : EncodedFields.Statement (.jumpIfNonzero p) :=
  EncodedFields.of_opcode 10 (by decide) rfl
theorem EncodedFields.jumpIfGt (p : Word) : EncodedFields.Statement (.jumpIfGt p) :=
  EncodedFields.of_opcode 11 (by decide) rfl
theorem EncodedFields.jumpIfLt (p : Word) : EncodedFields.Statement (.jumpIfLt p) :=
  EncodedFields.of_opcode 12 (by decide) rfl

end Sys2Proof.Laws
end

