-- ==== Sys2Proof/Laws/Step.lean ====
section
/-! SUPPORT. What one step can do. -/

namespace Sys2Proof.Machine

/-- What fetching, decoding and executing a word can do (R142 to R144). -/
theorem runWord_cases (w : InstrWord) (s : State) :
    (∃ i, decode w = .ok i ∧ runWord w s = exec i (setIr (opcodeField w) s)) ∨
    (∃ op, decode w = .error (.illegalOpcode op) ∧
      runWord w s = .next (raise .illegalOpcode op (setIr (opcodeField w) s))) := by
  unfold runWord
  cases h : decode w with
  | ok i => exact .inl ⟨i, rfl, rfl⟩
  | error e =>
    cases e with
    | illegalOpcode op => exact .inr ⟨op, rfl, rfl⟩

/-- What a step that answers a next state can do: end the run at the bound check, run an instruction, or stop at an
illegal opcode. It starts in RUN (R140 to R145). -/
theorem step_cases {s t : State} (h : step s = .next t) :
    s.fsm = .run ∧
    ((pcInBounds s = false ∧ t = enterBound s) ∨
     (∃ w i, pcInBounds s = true ∧ fetch s = some w ∧ decode w = .ok i ∧
        exec i (setIr (opcodeField w) s) = .next t) ∨
     (∃ w op, pcInBounds s = true ∧ fetch s = some w ∧ decode w = .error (.illegalOpcode op) ∧
        t = raise .illegalOpcode op (setIr (opcodeField w) s))) := by
  unfold step dispatchStep at h
  cases hf : s.fsm with
  | run =>
    simp only [hf] at h
    refine ⟨rfl, ?_⟩
    unfold stepInRun at h
    cases hb : pcInBounds s with
    | false =>
      simp only [hb] at h
      exact .inl ⟨rfl, by simpa using h.symm⟩
    | true =>
      simp only [hb, if_true] at h
      cases hw : fetch s with
      | none => simp [hw] at h
      | some w =>
        simp only [hw] at h
        rcases runWord_cases w s with ⟨i, hd, e⟩ | ⟨op, hd, e⟩
        · exact .inr (.inl ⟨w, i, rfl, rfl, hd, by rw [← e]; exact h⟩)
        · rw [e] at h
          exact .inr (.inr ⟨w, op, rfl, rfl, hd, by simpa using h.symm⟩)
  | idle => simp [hf] at h
  | halted => simp [hf] at h
  | bound => simp [hf] at h
  | faulted => simp [hf] at h

/-- A word fetched from a program as long as its bound says (R141, R142). -/
theorem fetch_isSome {s : State} (hl : s.progLen ≤ s.program.length) (hb : pcInBounds s = true) :
    ∃ w, fetch s = some w := by
  unfold pcInBounds at hb
  simp only [Bool.and_eq_true, decide_eq_true_eq] at hb
  have : (s32 s.pc).toNat < s.program.length := by omega
  exact ⟨s.program[(s32 s.pc).toNat], by simp [fetch, this]⟩

end Sys2Proof.Machine
end

