-- ==== Sys2Proof/Machine/Assembler.lean ====
section
/-! DEFINITION. The assembler's text and the listing (30_encoding.md rule R128). There are no labels and no
pseudo-instructions (R129). What the rule leaves open of the text is log 15, of the listing log 16. -/

namespace Sys2Proof.Machine

/-- The mnemonics in the order of their opcode numbers (R122), each with whether operand1 is a register selector
(R124). -/
def mnemonics : List (String × Bool) :=
  [("HALT", false), ("ADD", false), ("SUB", false), ("MUL", false), ("DIV", false),
    ("COPY_REG_TO_MEM", true), ("COPY_MEM_TO_REG", true), ("COPY_IMMEDIATE_TO_REG", true),
    ("JUMP", false), ("JUMP_IF_ZERO", false), ("JUMP_IF_NONZERO", false), ("JUMP_IF_GT", false),
    ("JUMP_IF_LT", false)]

/-- Why a line of text is no instruction. -/
inductive AsmError where
  /-- The first word of the line is no mnemonic of R122. -/
  | unknownMnemonic
  /-- An operand is neither a number nor a register name where R128 allows one. -/
  | badOperand
  /-- A number lies outside the range R128 gives its form. -/
  | operandOutOfRange
  /-- More than three operands. -/
  | tooManyOperands
  deriving DecidableEq, Repr

/-- The pieces of a text between the characters `sep`. -/
def splitChars (sep : Char) : List Char → List (List Char)
  | [] => [[]]
  | c :: cs =>
    match splitChars sep cs with
    | [] => [[c]]
    | p :: ps => if c = sep then [] :: p :: ps else (c :: p) :: ps

/-- A character that separates words inside a line: DESIGN CHOICE (log 15). -/
def isBlank (c : Char) : Bool := c = ' ' || c = '\t' || c = '\r'

/-- The text without blanks at either end. -/
def trimBlanks (t : List Char) : List Char := ((t.dropWhile isBlank).reverse.dropWhile isBlank).reverse

/-- The value of a digit in a base up to 16. -/
def digitValue (base : Nat) (c : Char) : Option Nat :=
  let n := c.toNat
  let v :=
    if '0'.toNat ≤ n ∧ n ≤ '9'.toNat then n - '0'.toNat
    else if 'a'.toNat ≤ n ∧ n ≤ 'f'.toNat then n - 'a'.toNat + 10
    else if 'A'.toNat ≤ n ∧ n ≤ 'F'.toNat then n - 'A'.toNat + 10
    else base
  if v < base then some v else none

/-- The value of digits after those already read. -/
def digitsFrom (base : Nat) : Nat → List Char → Option Nat
  | acc, [] => some acc
  | acc, c :: cs =>
    match digitValue base c with
    | some d => digitsFrom base (base * acc + d) cs
    | none => none

/-- A number of at least one digit. -/
def parseDigits (base : Nat) : List Char → Option Nat
  | [] => none
  | c :: cs => digitsFrom base 0 (c :: cs)

/-- A decimal integer in the signed word range (R128). -/
def checkDecimal (n : Int) : Except AsmError Word :=
  if fitsWord n then .ok (w32 n) else .error .operandOutOfRange

/-- An operand: `0x` and hexadecimal digits up to 2^32 - 1, or a decimal integer with an optional minus sign, or, where
operand1 is a selector, `R1` or `R2` (R128). -/
def parseOperand (selector : Bool) (t : List Char) : Except AsmError Word :=
  match t with
  | '0' :: 'x' :: ds =>
    match parseDigits 16 ds with
    | some n => if n ≤ 2 ^ 32 - 1 then .ok (w32 n) else .error .operandOutOfRange
    | none => .error .badOperand
  | '-' :: ds =>
    match parseDigits 10 ds with
    | some n => checkDecimal (-(n : Int))
    | none => .error .badOperand
  | ['R', d] =>
    if selector && d = '1' then .ok 1
    else if selector && d = '2' then .ok 2
    else .error .badOperand
  | ds =>
    match parseDigits 10 ds with
    | some n => checkDecimal n
    | none => .error .badOperand

/-- The three operand fields of an operand list: one left out is 0 (R128). -/
def parseOperands (selector : Bool) : List (List Char) → Except AsmError (Word × Word × Word)
  | [] => .ok (0, 0, 0)
  | [a] => do
    let x ← parseOperand selector a
    .ok (x, 0, 0)
  | [a, b] => do
    let x ← parseOperand selector a
    let y ← parseOperand false b
    .ok (x, y, 0)
  | [a, b, c] => do
    let x ← parseOperand selector a
    let y ← parseOperand false b
    let z ← parseOperand false c
    .ok (x, y, z)
  | _ => .error .tooManyOperands

/-- The operand texts of a line's rest: none at all, or the pieces between commas. -/
def operandTexts (rest : List Char) : List (List Char) :=
  match trimBlanks rest with
  | [] => []
  | c :: cs => (splitChars ',' (c :: cs)).map trimBlanks

/-- One line, its comment removed and trimmed: none when it is blank, else its instruction word (R128). DEDUCED (log
23): a value written in an operand that the instruction does not use is encoded like any other. -/
def assembleLine (line : List Char) : Except AsmError (Option InstrWord) :=
  let code := trimBlanks (line.takeWhile (· ≠ ';'))
  if code = [] then .ok none
  else
    let name := code.takeWhile (fun c => !isBlank c)
    match mnemonics.findIdx? (fun m => m.1.toList = name) with
    | none => .error .unknownMnemonic
    | some n => do
      let selector := (mnemonics[n]?.map Prod.snd).getD false
      let (x, y, z) ← parseOperands selector (operandTexts (code.drop name.length))
      .ok (some (joinFields (BitVec.ofNat 32 n) x y z))

/-- The words of a text's lines, blank and comment-only lines skipped (R128). -/
def assembleLines : List (List Char) → Except AsmError (List InstrWord)
  | [] => .ok []
  | l :: ls => do
    let w ← assembleLine l
    let ws ← assembleLines ls
    match w with
    | some v => .ok (v :: ws)
    | none => .ok ws

/-- `PROGRAM` of an assembler text (R128). -/
def assemble (text : String) : Except AsmError (List InstrWord) :=
  assembleLines (splitChars '\n' text.toList)

/-- A decimal integer as text. -/
def decimal (n : Int) : List Char :=
  if n < 0 then '-' :: Nat.toDigits 10 n.natAbs else Nat.toDigits 10 n.natAbs

/-- The listing of entry `n`: `n: MNEMONIC op1, op2, op3`, operands in decimal (R128); none for a word that spells no
instruction (log 16). -/
def listEntry (n : Nat) (w : InstrWord) : Option (List Char) :=
  (mnemonics[u32 (opcodeField w)]?).map fun m =>
    decimal n ++ ": ".toList ++ m.1.toList ++ " ".toList ++ decimal (s32 (op1Field w)) ++ ", ".toList
      ++ decimal (s32 (op2Field w)) ++ ", ".toList ++ decimal (s32 (op3Field w))

end Sys2Proof.Machine
end

