-- ==== Sys2Proof/Tests/Slice0.lean ====
section
/-! SUPPORT. Small tests with expected values from 95_test_vectors.md (each names its vector), the ill-formed terms that
every well-formedness check refuses, and for every obligation with hypotheses a state and operands that meet them. -/

namespace Sys2Proof.Tests

open Sys2Proof.Machine

/-! ## Well-formedness: one ill-formed term for each check -/

theorem test_reference_accepted : Config.reference.wellFormed = true := by decide
theorem test_no_lines_refused : { Config.reference with l1Lines := 0 }.wellFormed = false := by decide
theorem test_equal_lines_refused : { Config.reference with l2Lines := 2 }.wellFormed = false := by decide
theorem test_equal_latencies_refused : { Config.reference with l3Lat := 10 }.wellFormed = false := by decide
theorem test_store_not_whole_blocks_refused : { Config.reference with storeWords := 101 }.wellFormed = false := by decide
theorem test_empty_store_refused : { Config.reference with storeWords := 0 }.wellFormed = false := by decide
theorem test_store_too_large_refused : { Config.reference with storeWords := 2 ^ 31 + 4 }.wellFormed = false := by decide
theorem test_largest_store_accepted : { Config.reference with storeWords := 2 ^ 31 }.wellFormed = true := by decide
theorem test_progLen_bound : progLenFits (2 ^ 31 - 1) = true ∧ progLenFits (2 ^ 31) = false := by decide
theorem test_word_range : fitsWord (2 ^ 31 - 1) = true ∧ fitsWord (2 ^ 31) = false ∧ fitsWord (-2 ^ 31) = true ∧
    fitsWord (-2 ^ 31 - 1) = false := by decide
theorem test_tuple_fields_refused :
    SourceTuple.wellFormed ⟨2 ^ 31, 0, 0, 0⟩ = false ∧ SourceTuple.wellFormed ⟨0, 2 ^ 31, 0, 0⟩ = false ∧
    SourceTuple.wellFormed ⟨0, 0, 2 ^ 31, 0⟩ = false ∧ SourceTuple.wellFormed ⟨0, 0, 0, 2 ^ 31⟩ = false := by decide

/-! ## Decoding the words of 95_test_vectors.md section 2.9 -/

theorem test_decode_halt : decodeTableWord 128 0x00000000000000000000000000000000 = some .halt := by decide
theorem test_decode_add : decodeTableWord 128 0x00000002000000010000000000000001 = some (.add 0 1 2) := by decide
theorem test_decode_sub : decodeTableWord 128 0x00000000000000020000000000000002 = some (.sub 0 2 0) := by decide
theorem test_decode_mul : decodeTableWord 128 0x00000001000000000000000100000003 = some (.mul 1 0 1) := by decide
theorem test_decode_div : decodeTableWord 128 0x00000002000000010000000000000004 = some (.div 0 1 2) := by decide
theorem test_decode_copyRegToMem :
    decodeTableWord 128 0x00000000000000000000000100000005 = some (.copyRegToMem 1 0) := by decide
theorem test_decode_copyMemToReg :
    decodeTableWord 128 0x00000000000000020000000200000006 = some (.copyMemToReg 2 2) := by decide
theorem test_decode_copyImmediateToReg :
    decodeTableWord 128 0x00000000FFFFFFFF0000000200000007 = some (.copyImmediateToReg 2 0xFFFFFFFF) := by decide
theorem test_decode_jump : decodeTableWord 128 0x00000000000000000000000500000008 = some (.jump 5) := by decide
theorem test_decode_jumpIfZero : decodeTableWord 128 0x00000000000000000000000900000009 = some (.jumpIfZero 9) := by decide
theorem test_decode_jumpIfNonzero :
    decodeTableWord 128 0x0000000000000000000000050000000A = some (.jumpIfNonzero 5) := by decide
theorem test_decode_jumpIfGt : decodeTableWord 128 0x0000000000000000000000060000000B = some (.jumpIfGt 6) := by decide
theorem test_decode_jumpIfLt : decodeTableWord 128 0x0000000000000000000000000000000C = some (.jumpIfLt 0) := by decide

/-- The first opcode past the table and the largest one are no instructions (V-DP-3, V-DP-4). -/
theorem test_decode_rejects : decodeTableWord 128 0xD = none ∧ decodeTableWord 128 0xFFFFFFFF = none := by decide

/-- Unused operand fields are ignored (V-DP-5). -/
theorem test_decode_ignores_unused : decodeTableWord 128 0x00000009000000080000000700000000 = some .halt := by decide

/-- The encoder writes the words of section 2.9. -/
theorem test_encode :
    encode (.add 0 1 2) = 0x00000002000000010000000000000001 ∧
    encode (.copyImmediateToReg 2 0xFFFFFFFF) = 0x00000000FFFFFFFF0000000200000007 ∧
    encode (.jumpIfLt 0) = 0x0000000000000000000000000000000C := by decide

/-! ## The alu: rows of 95_test_vectors.md section 2.1 -/

theorem test_alu_add : alu .add 0x7FFFFFFF 1 = ⟨0x80000000, false⟩ := by decide
theorem test_alu_sub : alu .sub 0x7FFFFFFF 0xFFFFFFFF = ⟨0x80000000, false⟩ := by decide
theorem test_alu_mul : alu .mul 0x12345678 0x9ABCDEF0 = ⟨0x242D2080, false⟩ := by decide
theorem test_alu_div_toward_zero :
    alu .div 0xFFFFFFF9 2 = ⟨0xFFFFFFFD, false⟩ ∧ alu .div 7 0xFFFFFFFE = ⟨0xFFFFFFFD, false⟩ := by decide
theorem test_alu_div_edges :
    alu .div 0x80000000 0xFFFFFFFF = ⟨0x80000000, false⟩ ∧ alu .div 5 0 = ⟨0, true⟩ := by decide

/-! ## One step -/

/-- RUN at `pc` in a program of these words, with empty caches, this store and this AC. -/
def runningAt (words : List InstrWord) (pc ac : Word) (store : Memory) : State :=
  { State.poweredOn Config.reference store with
    program := words
    progLen := words.length
    pc := pc
    ac := ac
    fsm := .run }

/-- What a test looks at in a next state. -/
def seen {α : Type} (f : State → α) : Host.Outcome State Fault Refusal → Option α
  | .next t => some (f t)
  | .fault _ => none
  | .refused _ => none

/-- V-DP-1. -/
theorem test_halt :
    seen (fun t => (t.status, t.pc, t.ir, t.events)) (step (runningAt [1, 1, 1, 0] 3 0 [])) =
      some (0x12, 3, 0, [.done]) := by decide

/-- V-AR-1. -/
theorem test_add :
    seen (fun t => (t.ac, t.word 2, t.pc, t.mem.stats.totalAccesses))
      (step (runningAt [0x00000002000000010000000000000001] 0 0 [(0, 2), (1, 3)])) = some (5, 5, 1, 3) := by decide

/-- V-EXC-2: the read of the first source stays done. -/
theorem test_add_second_source_invalid :
    seen (fun t => (t.fault, t.ac, t.mem.stats.totalTime))
      (step (runningAt [0x0000012C000000C80000000500000001] 0 7 [])) = some (⟨1, 0, 200⟩, 7, 161) := by decide

/-- V-AR-4. -/
theorem test_sub :
    seen (fun t => (t.ac, t.word 2))
      (step (runningAt [0x00000002000000010000000000000002] 0 0 [(0, 5), (1, 7)])) =
      some (0xFFFFFFFE, 0xFFFFFFFE) := by decide

/-- V-AR-5: the second read hits L1. -/
theorem test_mul :
    seen (fun t => (t.ac, t.word 1, t.mem.stats.totalHits))
      (step (runningAt [0x00000001000000000000000000000003] 0 0 [(0, 0x10000)])) = some (0, 0, 1) := by decide

/-- V-AR-7. -/
theorem test_div_by_zero :
    seen (fun t => (t.ac, t.pc, t.status, t.divzCount, t.events))
      (step (runningAt [0x00000002000000010000000000000004] 0 5 [(0, 9)])) =
      some (0, 0, 0x9, 1, [.warn .divisionByZero 0]) := by decide

/-- V-AR-10: AC is written before the failing write. -/
theorem test_div_destination_invalid :
    seen (fun t => (t.ac, t.fault, t.pc, t.status))
      (step (runningAt [0x00000064000000010000000000000004] 0 0 [(0, 9), (1, 3)])) =
      some (3, ⟨1, 0, 100⟩, 0, 0x4) := by decide

/-- V-DM-3, with the register loaded beforehand. -/
theorem test_copyRegToMem :
    seen (fun t => (t.word 3, t.mem.l1.resident 0, t.mem.l2.resident 0, t.mem.l3.resident 0))
      (step { runningAt [0x00000000000000030000000200000005] 0 0 [] with r2 := 0xFFFFFFFF }) =
      some (0xFFFFFFFF, true, false, false) := by decide

/-- P5, third instruction: the register gets the store's word. -/
theorem test_copyMemToReg :
    seen (fun t => (t.r1, t.r2, t.pc))
      (step (runningAt [0x00000000000000030000000100000006] 0 0 [(3, 0xFFFFFFFF)])) = some (0xFFFFFFFF, 0, 1) := by decide

/-- V-DM-6: the selector is checked before the address. -/
theorem test_copyMemToReg_bad_selector :
    seen (fun t => (t.fault, t.mem.stats.totalAccesses))
      (step (runningAt [0x00000000FFFFFFFFFFFFFFFF00000006] 0 0 [])) = some (⟨4, 0, 0xFFFFFFFF⟩, 0) := by decide

/-- V-DM-1. -/
theorem test_copyImmediateToReg :
    seen (fun t => (t.r1, t.r2, t.pc, t.mem.stats.totalAccesses))
      (step (runningAt [0x00000000000000050000000100000007] 0 0 [])) = some (5, 0, 1, 0) := by decide

/-- V-DM-5. -/
theorem test_copyImmediateToReg_bad_selector :
    seen (fun t => (t.r1, t.r2, t.fault, t.pc))
      (step (runningAt [0x00000000000000050000000300000007] 0 0 [])) = some (0, 0, ⟨4, 0, 3⟩, 0) := by decide

/-- V-CT-1, V-CT-3. -/
theorem test_jump :
    seen State.pc (step (runningAt [0, 0, 0x00000000000000000000000500000008] 2 0 [])) = some 5 ∧
    seen State.pc (step (runningAt [0x0000000000000000FFFFFFFF00000008] 0 0 [])) = some 0xFFFFFFFF := by decide

/-- V-CT-5, V-CT-6. -/
theorem test_jumpIfZero :
    seen State.pc (step (runningAt [0, 0, 0, 0x00000000000000000000000700000009] 3 0 [])) = some 7 ∧
    seen State.pc (step (runningAt [0, 0, 0, 0x00000000000000000000000700000009] 3 1 [])) = some 4 := by decide

/-- R190: not taken at 0, taken at a negative AC. -/
theorem test_jumpIfNonzero :
    seen State.pc (step (runningAt [0x0000000000000000000000050000000A] 0 0 [])) = some 1 ∧
    seen State.pc (step (runningAt [0x0000000000000000000000050000000A] 0 0xFFFFFFFF [])) = some 5 := by decide

/-- V-SRC-7; the test is signed (R190). -/
theorem test_jumpIfGt :
    seen State.pc (step (runningAt [0, 0, 0x0000000000000000000000060000000B] 2 3 [])) = some 6 ∧
    seen State.pc (step (runningAt [0, 0, 0x0000000000000000000000060000000B] 2 0x80000000 [])) = some 3 := by decide

/-- R190: taken at a negative AC, not at 0. -/
theorem test_jumpIfLt :
    seen State.pc (step (runningAt [0, 0x0000000000000000000000000000000C] 1 0x80000000 [])) = some 0 ∧
    seen State.pc (step (runningAt [0, 0x0000000000000000000000000000000C] 1 0 [])) = some 2 := by decide

/-- V-DP-2, and the second step of V-CT-3: BOUND, with no fetch. -/
theorem test_bound :
    seen (fun t => (t.status, t.ir, t.events)) (step (runningAt [] 0 0 [])) = some (0x13, 0, [.bound]) ∧
    seen (fun t => (t.status, t.pc)) (step (runningAt [0] 0xFFFFFFFF 0 [])) = some (0x13, 0xFFFFFFFF) := by decide

/-- V-DP-3. -/
theorem test_illegal_opcode :
    seen (fun t => (t.ir, t.fault, t.pc, t.status, t.mem.stats.totalAccesses)) (step (runningAt [0, 13] 1 0 [])) =
      some (13, ⟨3, 1, 13⟩, 1, 0x4, 0) := by decide

/-- V-DP-4. -/
theorem test_illegal_opcode_unsigned :
    seen State.fault (step (runningAt [0xFFFFFFFF] 0 0 [])) = some ⟨3, 0, 0xFFFFFFFF⟩ := by decide

/-- The placed word is the one the next step runs, after reset. -/
theorem test_withFetchWord :
    seen (fun t => (t.r2, t.ir)) (step (State.reset.withFetchWord 128 0x00000000FFFFFFFF0000000200000007)) =
      some (0xFFFFFFFF, 7) := by decide

/-! ## The caches -/

/-- The memory side after reads of these word addresses. -/
def readAll (h : Hierarchy) : List Nat → Hierarchy
  | [] => h
  | a :: as => readAll (h.read Config.reference a).2 as

/-- Valid lines as tag and timestamp, in index order. -/
def lineTags (c : Level) : List (Nat × Nat) := (c.lines.filter Line.valid).map fun l => (l.tag.toNat, l.lastUsed.toNat)

/-- The three counters of a statistics record that the vectors list after `acc`. -/
def totals (h : Hierarchy) : Nat × Nat × Nat × Nat :=
  (h.stats.totalAccesses.toNat, h.stats.totalHits.toNat, h.stats.totalMisses.toNat, h.stats.totalTime.toNat)

/-- V-SRC-1. -/
theorem test_read_hit_after_miss :
    totals (readAll State.reset.mem [0]) = (1, 0, 1, 161) ∧ totals (readAll State.reset.mem [0, 0]) = (2, 1, 1, 162) ∧
    lineTags (readAll State.reset.mem [0, 0]).l1 = [(0, 2)] ∧ lineTags (readAll State.reset.mem [0, 0]).l2 = [(0, 1)] := by
  decide

/-- V-SRC-2. -/
theorem test_write_allocates_l1_only :
    totals (State.reset.mem.write Config.reference 5 42) = (1, 0, 0, 161) ∧
    (State.reset.mem.write Config.reference 5 42).store = [(5, 42)] ∧
    lineTags (State.reset.mem.write Config.reference 5 42).l1 = [(1, 1)] ∧
    lineTags (State.reset.mem.write Config.reference 5 42).l2 = [] := by decide

/-- V-SRC-5: the least recently used block goes. -/
theorem test_lru :
    lineTags (readAll State.reset.mem [0, 4, 0, 8]).l1 = [(0, 3), (2, 4)] ∧
    totals (readAll State.reset.mem [0, 4, 0, 8]) = (4, 1, 3, 484) := by decide

/-- V-SRC-8 and V-STATS-2: lines stay at a statistics reset, and the restarted clock inverts the order. -/
theorem test_statistics_reset :
    lineTags (readAll State.reset.mem [0, 4, 0, 8]).resetStatistics.l1 = [(0, 3), (2, 4)] ∧
    totals (readAll State.reset.mem [0, 4, 0, 8]).resetStatistics = (0, 0, 0, 0) ∧
    lineTags (readAll (readAll State.reset.mem [0, 4, 0, 8]).resetStatistics [0, 4]).l1 = [(1, 2), (2, 4)] ∧
    totals (readAll (readAll State.reset.mem [0, 4, 0, 8]).resetStatistics [0, 4]) = (2, 2, 0, 12) := by decide

/-- V-SRC-9, case 1: every level is updated in place. -/
theorem test_write_hits_everywhere :
    ((readAll State.reset.mem [0]).write Config.reference 1 7).l3.dataAt 0 = ⟨0, 7, 0, 0⟩ ∧
    ((readAll State.reset.mem [0]).write Config.reference 1 7).l1.dataAt 0 = ⟨0, 7, 0, 0⟩ ∧
    totals ((readAll State.reset.mem [0]).write Config.reference 1 7) = (2, 0, 1, 322) := by decide

/-- V-CACHE-2: an L3 hit fills L2 and L1. -/
theorem test_l3_hit :
    lineTags (readAll State.reset.mem [0, 4, 8, 12, 16, 0]).l1 = [(4, 5), (0, 6)] ∧
    (readAll State.reset.mem [0, 4, 8, 12, 16, 0]).l2.resident 1 = false ∧
    totals (readAll State.reset.mem [0, 4, 8, 12, 16, 0]) = (6, 1, 5, 866) := by decide

/-- V-SRC-6: hit rates of V-SRC-5 and of a block that made no access. -/
theorem test_hit_rate :
    (snapshot State.reset).hitRate = 0 ∧
    Snapshot.hitRate ⟨4, 1, 3, 484, (1, 0, 0), (3, 3, 3)⟩ = 1 / 4 := by
  constructor
  · norm_num [Snapshot.hitRate, ratioOrZero, snapshot, readRegister, State.reset, State.poweredOn, Statistics.zero]
  · norm_num [Snapshot.hitRate, ratioOrZero, show BitVec.toNat (4 : Counter) = 4 from rfl,
      show BitVec.toNat (1 : Counter) = 1 from rfl]

/-! ## The host and the assembler -/

/-- V-RST-2, V-RST-5. -/
theorem test_run_start_refused :
    seen State.pc (runStart [] 0 (runningAt [] 0 0 [])) = none ∧
    seen State.pc (runStart [] 0 { State.reset with fsm := .faulted }) = none := by decide

/-- A run start from HALTED: RUN, STATUS 1, statistics kept (V-RST-3). -/
theorem test_run_start :
    seen (fun t => (t.status, t.ac, t.mem.stats.totalAccesses))
      (runStart [0] 1 { runningAt [0] 0 9 [] with fsm := .halted, mem := readAll State.reset.mem [0] }) =
      some (1, 0, 1) := by decide

/-- READ of STATUS, of a configuration value and of an unassigned number (R36). -/
theorem test_read :
    readRegister (runningAt [] 0 0 []) 0x00 = 1 ∧ readRegister State.reset 0x27 = 100 ∧
    readRegister State.reset 0x0A = 0 := by decide

/-- Lines of 95_test_vectors.md section 2.9, a comment line and a blank line (R128). -/
theorem test_assemble :
    (assemble "COPY_IMMEDIATE_TO_REG R2, -1\n; note\n\nHALT" = .ok [0x00000000FFFFFFFF0000000200000007, 0]) ∧
    (assemble "JUMP_IF_GT 0x6 ; taken" = .ok [0x0000000000000000000000060000000B]) := by decide

/-- V-DP-5: a value written in an unused operand is encoded (log 23). -/
theorem test_assemble_unused : assemble "HALT 7, 8, 9" = .ok [0x00000009000000080000000700000000] := by decide

/-- An unknown mnemonic and an integer that does not fit are rejected (R128). -/
theorem test_assemble_rejects :
    (assemble "NOP" = .error .unknownMnemonic) ∧ (assemble "JUMP 2147483648" = .error .operandOutOfRange) := by decide

/-- The listing form (R128). -/
theorem test_listing : listEntry 3 0x0000000000000000000000060000000B = some "3: JUMP_IF_GT 6, 0, 0".toList := by decide

/-! ## Witnesses: states and operands that meet the hypotheses of the obligations -/

/-- Words 0, 1, 5 and 99 of the store hold something; 99 is the last address. -/
def demoStore : Memory := [(0, 9), (1, 3), (5, 0xFFFFFFF9), (99, 4)]

/-- A run at its first entry: DIV 0, 2, 1 (a zero divisor), then ADD 0, 1, 2, then an illegal opcode, then HALT. -/
def demoProgram : List InstrWord :=
  [0x00000001000000020000000000000004, 0x00000002000000010000000000000001, 0x0000000000000000000000000000000D, 0]

/-- That program at an entry, with that store. -/
def demoAt (pc : Word) : State := runningAt demoProgram pc 0 demoStore

/-- At the first entry. -/
def demo : State := demoAt 0

/-- `demo` after a read has filled lines of every level. -/
def warmDemo : State := { demo with mem := (demo.mem.read demo.cfg 5).2 }

theorem demoAt_inv (pc : Word) : StateInv (demoAt pc) where
  config := show Config.reference.wellFormed = true by decide
  progLen := show progLenFits demoProgram.length = true by decide
  program := le_refl _
  mem := ⟨⟨show demoStore.wf by decide, show ∀ x ∈ demoStore, x.1 < 100 by decide⟩, LevelInv.empty _ _ _,
    LevelInv.empty _ _ _, LevelInv.empty _ _ _⟩
  faultRecord := ⟨fun _ => rfl, fun h => by cases h⟩
  divz := fun _ => rfl

theorem demo_inv : StateInv demo := demoAt_inv 0

theorem warmDemo_inv : StateInv warmDemo where
  config := demo_inv.config
  progLen := demo_inv.progLen
  program := demo_inv.program
  mem := demo_inv.mem.read demo_inv.config (by decide)
  faultRecord := demo_inv.faultRecord
  divz := demo_inv.divz

/-- The invariant of every state holds of a state with the invariant of a block that is not FAULTED. -/
theorem blockInv_of_stateInv {s : State} (h : StateInv s) : BlockInv s :=
  ⟨h.config, h.progLen, h.program, h.mem.store, h.faultRecord, h.divz, fun _ => h.mem⟩

theorem validAddress_zero : demo.validAddress 0 := ⟨by decide, by decide⟩
theorem validAddress_last : demo.validAddress 99 := ⟨by decide, by decide⟩
theorem invalidAddress_past : ¬ demo.validAddress 100 := fun h => absurd h.2 (by decide)
theorem invalidAddress_negative : ¬ demo.validAddress 0xFFFFFFFF := fun h => absurd h.1 (by decide)

theorem witness_DecodeOfEncodeIsTheInstruction :
    Instr.wellFormed (.add 0xFFFFFFFF 0x80000000 0) = true ∧ Instr.wellFormed .halt = true := by decide

theorem witness_EncodeOfDecodeKeepsTheUsedFields :
    decode 0x00000009000000080000000700000000 = .ok .halt ∧
    decode 0xFFFFFFFF80000000000000000000000C = .ok (.jumpIfLt 0) := by decide

theorem witness_DecodeRejectsExactlyOpcodesFromThirteen :
    13 ≤ u32 (opcodeField 0xD) ∧ 13 ≤ u32 (opcodeField 0xFFFFFFFF) ∧ u32 (opcodeField 0xC) < 13 := by decide

theorem witness_TupleWordHoldsItsIntegers :
    SourceTuple.wellFormed ⟨12, -2 ^ 31, 2 ^ 31 - 1, -1⟩ = true ∧ SourceTuple.wellFormed ⟨1, 0, 2 ^ 31, 0⟩ = false := by
  decide

theorem witness_StepRunsTheDecodedInstruction :
    (demoAt 3).fsm = .run ∧ 0 ≤ s32 (demoAt 3).pc ∧ s32 (demoAt 3).pc < (demoAt 3).progLen ∧
    (demoAt 3).program[(s32 (demoAt 3).pc).toNat]? = some 0 ∧ decode 0 = .ok .halt ∧ Instr.wellFormed .halt = true := by
  decide

theorem witness_StepEndsInBoundOutsideTheProgram :
    (demoAt 4).fsm = .run ∧ ((demoAt 4).progLen : Int) ≤ s32 (demoAt 4).pc ∧
    (demoAt 0xFFFFFFFF).fsm = .run ∧ s32 (demoAt 0xFFFFFFFF).pc < 0 := by decide

theorem witness_StepStopsAtAnIllegalOpcode :
    (demoAt 2).fsm = .run ∧ 0 ≤ s32 (demoAt 2).pc ∧ s32 (demoAt 2).pc < (demoAt 2).progLen ∧
    (demoAt 2).program[(s32 (demoAt 2).pc).toNat]? = some 13 ∧ 13 ≤ u32 (opcodeField 13) := by decide

/-- Words with the opcodes that HaltStopsTheBlock, CopyImmediateLoadsTheLiteral and the five jumps' statements name. -/
theorem witness_opcodeWords :
    u32 (opcodeField 0x00000009000000080000000700000000) = 0 ∧
    u32 (opcodeField 0x00000000FFFFFFFF0000000200000007) = 7 ∧
    u32 (opcodeField 0x00000000000000000000000500000008) = 8 ∧
    u32 (opcodeField 0x00000000000000000000000900000009) = 9 ∧
    u32 (opcodeField 0x0000000000000000000000050000000A) = 10 ∧
    u32 (opcodeField 0x0000000000000000000000060000000B) = 11 ∧
    u32 (opcodeField 0x0000000000000000000000000000000C) = 12 := by decide

theorem witness_StoppedBlockTakesNoStep : State.reset.fsm ≠ .run ∧ ({ demo with fsm := .bound } : State).fsm ≠ .run := by
  decide

theorem witness_RunningBlockAlwaysSteps : StateInv demo ∧ demo.fsm = .run := ⟨demo_inv, rfl⟩

theorem witness_AluDivRoundsTowardZero :
    s32 (0 : Word) = 0 ∧ (s32 (0x80000000 : Word) = -2 ^ 31 ∧ s32 (0xFFFFFFFF : Word) = -1) ∧
    (s32 (1 : Word) ≠ 0 ∧ ¬ (s32 (0x80000000 : Word) = -2 ^ 31 ∧ s32 (1 : Word) = -1)) ∧
    0 ≤ s32 (0xFFFFFFF9 : Word) * s32 (0xFFFFFFFE : Word) ∧ s32 (0xFFFFFFF9 : Word) * s32 (2 : Word) ≤ 0 := by decide

theorem witness_AddStoresTheSum :
    StateInv demo ∧ demo.validAddress 0 ∧ demo.validAddress 99 ∧ demo.validAddress 0 :=
  ⟨demo_inv, validAddress_zero, validAddress_last, validAddress_zero⟩

theorem witness_SubStoresTheDifference :
    StateInv warmDemo ∧ warmDemo.validAddress 99 ∧ warmDemo.validAddress 0 ∧ warmDemo.validAddress 99 :=
  ⟨warmDemo_inv, validAddress_last, validAddress_zero, validAddress_last⟩

theorem witness_MulStoresTheProduct :
    StateInv demo ∧ demo.validAddress 0 ∧ demo.validAddress 0 ∧ demo.validAddress 99 :=
  ⟨demo_inv, validAddress_zero, validAddress_zero, validAddress_last⟩

theorem witness_DivStoresTheQuotient :
    StateInv demo ∧ demo.validAddress 0 ∧ demo.validAddress 99 ∧ demo.validAddress 0 ∧ demo.word (addressOf 99) ≠ 0 :=
  ⟨demo_inv, validAddress_zero, validAddress_last, validAddress_zero, by decide⟩

theorem witness_DivByZeroWarnsAndHolds :
    StateInv demo ∧ demo.validAddress 0 ∧ demo.validAddress 98 ∧ demo.word (addressOf 98) = 0 :=
  ⟨demo_inv, validAddress_zero, ⟨by decide, by decide⟩, by decide⟩

theorem witness_DivByZeroStallNeverEnds :
    StateInv demo ∧ demo.fsm = .run ∧ pcInBounds demo = true ∧ fetch demo = some 0x00000001000000020000000000000004 ∧
    decode 0x00000001000000020000000000000004 = .ok (.div 0 2 1) ∧ demo.validAddress 0 ∧ demo.validAddress 2 ∧
    demo.word (addressOf 2) = 0 :=
  ⟨demo_inv, rfl, by decide, by decide, by decide, validAddress_zero, ⟨by decide, by decide⟩, by decide⟩

theorem witness_ArithmeticStopsAtTheFirstBadAddress :
    ¬ demo.validAddress 0xFFFFFFFF ∧ (demo.validAddress 0 ∧ ¬ demo.validAddress 100) ∧
    (StateInv demo ∧ demo.validAddress 0 ∧ demo.validAddress 99 ∧ ¬ demo.validAddress 100 ∧
      demo.word (addressOf 99) ≠ 0) :=
  ⟨invalidAddress_negative, ⟨validAddress_zero, invalidAddress_past⟩,
    demo_inv, validAddress_zero, validAddress_last, invalidAddress_past, by decide⟩

theorem witness_CopyImmediateLoadsTheLiteral :
    s32 (1 : Word) = 1 ∧ s32 (2 : Word) = 2 ∧ (s32 (0 : Word) ≠ 1 ∧ s32 (0 : Word) ≠ 2) ∧
    (s32 (3 : Word) ≠ 1 ∧ s32 (3 : Word) ≠ 2) := by decide

theorem witness_CopyRegToMemStoresTheRegister :
    StateInv demo ∧ demo.validAddress 0 ∧ demo.validAddress 99 ∧ s32 (1 : Word) = 1 ∧ s32 (2 : Word) = 2 :=
  ⟨demo_inv, validAddress_zero, validAddress_last, by decide, by decide⟩

theorem witness_CopyMemToRegLoadsTheWord :
    StateInv warmDemo ∧ warmDemo.validAddress 0 ∧ warmDemo.validAddress 99 ∧ s32 (1 : Word) = 1 ∧ s32 (2 : Word) = 2 :=
  ⟨warmDemo_inv, validAddress_zero, validAddress_last, by decide, by decide⟩

theorem witness_CopiesStopAtABadSelector :
    (s32 (0 : Word) ≠ 1 ∧ s32 (0 : Word) ≠ 2) ∧ (s32 (0xFFFFFFFF : Word) ≠ 1 ∧ s32 (0xFFFFFFFF : Word) ≠ 2) := by decide

theorem witness_MemoryCopiesStopAtABadAddress :
    (s32 (1 : Word) = 1 ∨ s32 (1 : Word) = 2) ∧ (s32 (2 : Word) = 1 ∨ s32 (2 : Word) = 2) ∧
    ¬ demo.validAddress 100 ∧ ¬ demo.validAddress 0xFFFFFFFF :=
  ⟨by decide, by decide, invalidAddress_past, invalidAddress_negative⟩

theorem witness_VictimIsFirstEmptyElseLeastRecentlyUsed :
    0 < (Level.empty 2).lines.length ∧ (Level.empty 2).lines[0]? = some Line.empty ∧ Line.empty.valid = false ∧
    0 < (readAll State.reset.mem [0, 4]).l1.lines.length ∧
    (∀ l ∈ (readAll State.reset.mem [0, 4]).l1.lines, l.valid = true) := by decide

theorem witness_InstallFillsOnlyTheVictim : 0 < (Level.empty 1).lines.length := by decide

theorem witness_ReadReturnsTheStoresWord : StateInv warmDemo ∧ warmDemo.validAddress 0 ∧ warmDemo.validAddress 99 :=
  ⟨warmDemo_inv, validAddress_zero, validAddress_last⟩

/-- Blocks resident in L1, in L2 but not L1, in L3 only, and nowhere; the lines exist. -/
theorem witness_ReadCountsByTheLevelThatHits :
    let h := readAll State.reset.mem [0, 4, 8, 12, 16]
    h.l1.resident 4 = true ∧ (h.l1.resident 1 = false ∧ h.l2.resident 1 = true) ∧
    (h.l1.resident 0 = false ∧ h.l2.resident 0 = false ∧ h.l3.resident 0 = true) ∧
    (h.l1.resident 5 = false ∧ h.l2.resident 5 = false ∧ h.l3.resident 5 = false) := by decide

theorem witness_ReadLeavesTheBlockInTheLevelsOfR99 :
    let h := readAll State.reset.mem [0, 4, 8]
    (0 < h.l1.lines.length ∧ 0 < h.l2.lines.length ∧ 0 < h.l3.lines.length) ∧ h.l1.resident 2 = true ∧
    (h.l1.resident 0 = false ∧ h.l2.resident 0 = true) ∧ (h.l1.resident 3 = false ∧ h.l2.resident 3 = false) := by decide

theorem witness_WriteReachesTheStore : StateInv warmDemo ∧ warmDemo.validAddress 0 ∧ warmDemo.validAddress 99 :=
  ⟨warmDemo_inv, validAddress_zero, validAddress_last⟩

theorem witness_WriteAllocatesInL1Only :
    0 < demo.mem.l1.lines.length ∧ 0 < warmDemo.mem.l1.lines.length ∧ warmDemo.mem.l1.resident (blockIndex 5) = true := by
  decide

theorem witness_OnlyArithmeticWritesAc :
    (∀ op x y d, (Instr.copyImmediateToReg 1 5) ≠ arithInstr op x y d) ∧
    seen State.r1 (exec (.copyImmediateToReg 1 5) demo) = some 5 :=
  ⟨fun op x y d => by cases op <;> simp [arithInstr], by decide⟩

theorem witness_OnlyCopiesToRegistersWriteThem :
    (∀ sel v, s32 sel = 1 → Instr.copyImmediateToReg 2 5 ≠ .copyImmediateToReg sel v ∧
      Instr.copyImmediateToReg 2 5 ≠ .copyMemToReg sel v) ∧
    (∀ sel v, s32 sel = 2 → Instr.copyMemToReg 1 5 ≠ .copyImmediateToReg sel v ∧
      Instr.copyMemToReg 1 5 ≠ .copyMemToReg sel v) ∧
    seen State.r2 (exec (.copyImmediateToReg 2 5) demo) = some 5 ∧
    seen State.r1 (exec (.copyMemToReg 1 5) demo) = some 0xFFFFFFF9 := by
  refine ⟨fun sel v h => ⟨fun e => ?_, nofun⟩, fun sel v h => ⟨nofun, fun e => ?_⟩, by decide, by decide⟩
  · cases e; revert h; decide
  · cases e; revert h; decide

theorem witness_OnlyStoringInstructionsChangeTheStore :
    (∀ op x y d, Instr.jump 3 ≠ arithInstr op x y d) ∧ (∀ sel d, Instr.jump 3 ≠ .copyRegToMem sel d) ∧
    (∀ sel a, Instr.jump 3 ≠ .copyMemToReg sel a) ∧ seen State.pc (exec (.jump 3) demo) = some 3 :=
  ⟨fun op x y d => by cases op <;> simp [arithInstr], nofun, nofun, by decide⟩

/-- A step with a next state: for StepKeepsConfigurationAndProgram, FsmStatesAreEnteredAsR26Says and
StepEmitsAtMostOneEvent. -/
theorem witness_StepAnswersNext :
    seen (fun t => (t.fsm, t.events)) (step demo) = some (.run, [.warn .divisionByZero 0]) ∧
    seen State.fsm (step (demoAt 2)) = some .faulted ∧ seen State.fsm (step (demoAt 3)) = some .halted ∧
    seen State.fsm (step (demoAt 4)) = some .bound := by decide

/-- A step that does not end in FAULTED, from a state with a valid line in every level. -/
theorem witness_StepKeepsValidLinesValid :
    seen State.fsm (step warmDemo) = some .run ∧ warmDemo.mem.l1.resident 1 = true ∧
    warmDemo.mem.l2.resident 1 = true ∧ warmDemo.mem.l3.resident 1 = true := by decide

theorem witness_StepKeepsAccessCountersInAgreement :
    AccessCountersAgree demo.mem ∧ AccessCountersAgree warmDemo.mem ∧
    seen (fun t => (t.mem.stats.totalAccesses, t.fsm)) (step warmDemo) = some (3, .run) :=
  ⟨⟨by decide, by decide⟩, ⟨by decide, by decide⟩, by decide⟩

theorem witness_StepKeepsTheBlockInvariant :
    BlockInv (demoAt 1) ∧ seen State.ac (step (demoAt 1)) = some 12 := ⟨blockInv_of_stateInv (demoAt_inv 1), by decide⟩

theorem witness_CachesAreInvisibleToPrograms :
    StateInv demo ∧ StateInv warmDemo ∧ SameButHidden demo warmDemo ∧ demo.mem ≠ warmDemo.mem :=
  ⟨demo_inv, warmDemo_inv, ⟨rfl, rfl, rfl, rfl, rfl, rfl, rfl, rfl, rfl, rfl, rfl, rfl, rfl, by decide⟩, by decide⟩

theorem witness_PowerOnResetLeavesWhatR230Lists :
    Config.reference.wellFormed = true ∧ { Config.reference with l1Lat := 10 }.wellFormed = false := by decide

theorem witness_PowerOnResetStoresTheHostsWords :
    Config.reference.wellFormed = true ∧ (List.replicate 100 (-2 ^ 31 : Int)).length = Config.reference.storeWords ∧
    (∀ n ∈ List.replicate 100 (-2 ^ 31 : Int), fitsWord n = true) ∧
    (List.replicate 100 (2 ^ 31 : Int)).length = Config.reference.storeWords ∧
    ∃ n ∈ List.replicate 100 (2 ^ 31 : Int), fitsWord n = false :=
  ⟨by decide, by decide, fun n h => by rw [List.eq_of_mem_replicate h]; decide, by decide,
    2 ^ 31, List.mem_replicate.mpr ⟨by decide, rfl⟩, by decide⟩

theorem witness_RunStartClearsTheRegistersOnly :
    State.reset.fsm = .idle ∧ (0 : Nat) ≤ 2 ^ 31 - 1 ∧ 0 ≤ ([] : List InstrWord).length ∧
    demoProgram.length ≤ 2 ^ 31 - 1 ∧ 2 ^ 31 - 1 < 2 ^ 31 ∧ demo.fsm = .run := by decide

theorem witness_HostRequestsKeepTheBlockInvariant :
    BlockInv warmDemo ∧ AccessCountersAgree warmDemo.mem ∧
    seen (fun t => t.mem.stats.totalAccesses) (hostCommand .statsReset warmDemo) = some 0 :=
  ⟨blockInv_of_stateInv warmDemo_inv, ⟨by decide, by decide⟩, by decide⟩

theorem witness_HostReadsTheNumberedRegisters :
    demo.cfg.l1Lines < 2 ^ 32 ∧ demo.cfg.l2Lines < 2 ^ 32 ∧ demo.cfg.l3Lines < 2 ^ 32 ∧ demo.cfg.l1Lat < 2 ^ 64 ∧
    demo.cfg.l2Lat < 2 ^ 64 ∧ demo.cfg.l3Lat < 2 ^ 64 ∧ demo.cfg.storeLat < 2 ^ 64 ∧ demo.cfg.storeWords < 2 ^ 32 ∧
    demo.progLen < 2 ^ 32 := by decide

/-- After reads of blocks 0 to 4: block 4 hits L1, block 1 hits L2, block 0 hits L3, block 5 misses everywhere. -/
theorem witness_ReadTakesThePathOfTheLevelThatHits :
    let h := readAll State.reset.mem [0, 4, 8, 12, 16]
    ((h.l1.probe 4).1 = some 0 ∧ h.l1.lines[0]? = some ⟨true, 4, ⟨0, 0, 0, 0⟩, 5⟩) ∧
    ((h.l1.probe 1).1 = none ∧ (h.l2.probe 1).1 = some 1 ∧ h.l2.lines[1]? = some ⟨true, 1, ⟨0, 0, 0, 0⟩, 2⟩) ∧
    ((h.l1.probe 0).1 = none ∧ (h.l2.probe 0).1 = none ∧ (h.l3.probe 0).1 = some 0 ∧
      h.l3.lines[0]? = some ⟨true, 0, ⟨0, 0, 0, 0⟩, 1⟩) ∧
    ((h.l1.probe 5).1 = none ∧ (h.l2.probe 5).1 = none ∧ (h.l3.probe 5).1 = none) := by decide

theorem witness_WriteUpdatesEveryLevelThatHoldsTheBlock :
    let h := readAll State.reset.mem [0]
    ((h.l1.probe 0).1 = some 0 ∧ h.l1.lines[0]? = some ⟨true, 0, ⟨0, 0, 0, 0⟩, 1⟩) ∧ (h.l1.probe 1).1 = none ∧
    ((h.l2.probe 0).1 = some 0 ∧ h.l2.lines[0]? = some ⟨true, 0, ⟨0, 0, 0, 0⟩, 1⟩) ∧ (h.l2.probe 1).1 = none ∧
    ((h.l3.probe 0).1 = some 0 ∧ h.l3.lines[0]? = some ⟨true, 0, ⟨0, 0, 0, 0⟩, 1⟩) ∧ (h.l3.probe 1).1 = none := by
  decide

theorem witness_HostInspectsLinesAndWords :
    demo.mem.l1.lines[1]? = some Line.empty ∧ demo.mem.l2.lines[3]? = some Line.empty ∧
    demo.mem.l3.lines[7]? = some Line.empty ∧ demo.mem.l1.lines.length ≤ 2 ∧ demo.mem.l2.lines.length ≤ 4 ∧
    demo.mem.l3.lines.length ≤ 8 ∧ 99 < demo.cfg.storeWords ∧ demo.cfg.storeWords ≤ 100 := by decide

end Sys2Proof.Tests
end

/-! The host's POWER_ON_RESET (70_reset_and_hazards.md rule R230): what the state it leaves satisfies, for every store
that meets the store's invariant, and when the request is accepted. -/

namespace Sys2Proof.Machine

/-! The state after a power-on reset -/

@[simp] theorem State.word_poweredOn (c : Config) (m : Memory) (a : Nat) : (State.poweredOn c m).word a = m.read a := rfl

/-- IDLE is state 0, with neither DIVZ nor DONE (R26, R27). -/
@[simp] theorem State.status_poweredOn (c : Config) (m : Memory) : (State.poweredOn c m).status = 0 :=
  show (0 : BitVec 27) ++ BitVec.ofBool false ++ BitVec.ofBool false ++ FsmState.idle.code = (0 : Word) by decide

/-- The zero-initialised store lists no cell (R37). -/
theorem StoreInv.nil (c : Config) : StoreInv c [] where
  canonical := ⟨List.Pairwise.nil, List.forall_mem_nil _⟩
  inRange := List.forall_mem_nil _

/-- Empty levels agree with every store, so only the store needs its invariant (R96, R97). -/
theorem HierarchyInv.poweredOn {c : Config} {m : Memory} (hm : StoreInv c m) :
    HierarchyInv c (State.poweredOn c m).mem where
  store := hm
  l1 := LevelInv.empty c c.l1Lines m
  l2 := LevelInv.empty c c.l2Lines m
  l3 := LevelInv.empty c c.l3Lines m

/-- A block that is IDLE with no fault on record has a consistent fault record (R26, R28). -/
theorem FaultRecordInv.poweredOn (c : Config) (m : Memory) : FaultRecordInv (State.poweredOn c m) :=
  ⟨fun _ => rfl, fun hfaulted => nomatch hfaulted⟩

theorem BlockInv.poweredOn {c : Config} {m : Memory} (hc : c.wellFormed = true) (hm : StoreInv c m) :
    BlockInv (State.poweredOn c m) where
  config := hc
  progLen := show progLenFits 0 = true by decide
  program := Nat.zero_le _
  store := hm
  faultRecord := FaultRecordInv.poweredOn c m
  divz := fun _ => rfl
  lines := fun _ => HierarchyInv.poweredOn hm

/-- All counters start at 0, so those that count every access agree (R230). -/
theorem AccessCountersAgree.poweredOn (c : Config) (m : Memory) : AccessCountersAgree (State.poweredOn c m).mem :=
  ⟨rfl, BitVec.add_zero _⟩

theorem ClearedByPowerOn.poweredOn (c : Config) (m : Memory) : ClearedByPowerOn c (State.poweredOn c m) where
  cfg := rfl
  fsm := rfl
  status := State.status_poweredOn c m
  pc := rfl
  ac := rfl
  ir := rfl
  r1 := rfl
  r2 := rfl
  divz := rfl
  divzCount := rfl
  fault := rfl
  stats := rfl
  l1 := rfl
  l2 := rfl
  l3 := rfl
  program := rfl
  progLen := rfl
  events := rfl

/-! The request -/

/-- A configuration of R7 and a `STORE_INIT` that stands for a store are accepted in every state (R230). -/
theorem powerOnReset_of_store {c : Config} {init : StoreInit} {m : Memory} (hc : c.wellFormed = true)
    (hm : init.store c = .ok m) (s : State) : powerOnReset c init s = .next (State.poweredOn c m) := by
  simp [powerOnReset, hc, hm]

/-- The configuration is judged before the store (R7). -/
theorem powerOnReset_of_illFormed {c : Config} (hc : c.wellFormed = false) (init : StoreInit) (s : State) :
    powerOnReset c init s = .refused .configurationIllFormed := by
  simp [powerOnReset, hc]

/-- Settles O51: the zero-initialised store meets the store's invariant, and the state after the reset is a literal. -/
theorem powerOnResetLeavesWhatR230Lists : Obligations.PowerOnResetLeavesWhatR230Lists := by
  intro c s
  refine ⟨fun hc => ⟨State.poweredOn c [], ?accepted, ?invariant, ?counters, ?cleared, ?zeroStore⟩, fun hc init => ?refused⟩
  case accepted => exact powerOnReset_of_store hc rfl s
  case invariant => exact BlockInv.poweredOn hc (StoreInv.nil c)
  case counters => exact AccessCountersAgree.poweredOn c []
  case cleared => exact ClearedByPowerOn.poweredOn c []
  case zeroStore => exact State.word_poweredOn c []
  case refused => exact powerOnReset_of_illFormed hc init s

end Sys2Proof.Machine

/-! What executing an instruction can leave, said once for all thirteen instructions. The invariants of a step and the
frames of AC, R1 and R2 are read off it. -/

namespace Sys2Proof.Machine

/-- The state after a read access to the word a valid operand names (R79 to R84). -/
abbrev State.afterRead (s : State) (a : Word) : State := setMem (s.mem.read s.cfg (addressOf a)).2 s

/-- The state after a write access to the word a valid operand names (R85 to R91). -/
abbrev State.afterWrite (s : State) (a v : Word) : State := setMem (s.mem.write s.cfg (addressOf a) v) s

/-- The ends of an instruction, one constructor for each. Where a value written plays no part in the frames and the
invariants (the alu's result, a jump's goal), the constructor takes any. -/
inductive InstrEffect (s : State) : Instr → State → Prop
  /-- HALT (R146). -/
  | halt : InstrEffect s .halt (emit .done (setFsm .halted s))
  /-- A jump, taken or not (R191). -/
  | jump {i : Instr} (hi : i ≠ .halt) (p : Word) : InstrEffect s i (setPc p s)
  /-- COPY_IMMEDIATE_TO_REG with a good selector (R180). -/
  | loadImmediate {sel : Word} (imm : Word) {r : Reg} (hr : selectReg sel = some r) :
      InstrEffect s (.copyImmediateToReg sel imm) (advance (setReg r imm s))
  /-- COPY_MEM_TO_REG with a good selector and address (R182). -/
  | loadWord {sel a : Word} {r : Reg} (hr : selectReg sel = some r) (ha : s.validAddress a) (v : Word) :
      InstrEffect s (.copyMemToReg sel a) (advance (setReg r v (s.afterRead a)))
  /-- COPY_REG_TO_MEM with a good selector and address (R181). -/
  | storeRegister {sel d : Word} (hd : s.validAddress d) (v : Word) :
      InstrEffect s (.copyRegToMem sel d) (advance (s.afterWrite d v))
  /-- A hard stop before any access: a bad selector, or the first address is invalid (R183, R201). -/
  | stop {i : Instr} (hi : i ≠ .halt) {e : Cause} (he : e ≠ .divisionByZero) (info : Word) :
      InstrEffect s i (raise e info s)
  /-- An arithmetic instruction whose second source is invalid (R165). -/
  | stopAtSecondSource (op : AluOp) {x : Word} (y d : Word) (hx : s.validAddress x) :
      InstrEffect s (arithInstr op x y d) (raise .outOfBounds y (s.afterRead x))
  /-- A DIV by zero, which holds (R170). -/
  | warn (op : AluOp) {x y : Word} (d : Word) (hx : s.validAddress x) (hy : s.validAddress y) :
      InstrEffect s (arithInstr op x y d) (warnDivisionByZero (setAc 0 ((s.afterRead x).afterRead y)))
  /-- An arithmetic instruction that stores its result (R165). -/
  | storeResult (op : AluOp) {x y d : Word} (hx : s.validAddress x) (hy : s.validAddress y) (hd : s.validAddress d)
      (v : Word) :
      InstrEffect s (arithInstr op x y d) (advance ((setAc v ((s.afterRead x).afterRead y)).afterWrite d v))
  /-- An arithmetic instruction whose destination is invalid, with AC already written (R165, R206). -/
  | stopAtDestination (op : AluOp) {x y : Word} (d : Word) (hx : s.validAddress x) (hy : s.validAddress y) (v : Word) :
      InstrEffect s (arithInstr op x y d) (raise .outOfBounds d (setAc v ((s.afterRead x).afterRead y)))

/-! ### The parts the instructions share -/

theorem arithInstr_ne_halt (op : AluOp) (x y d : Word) : arithInstr op x y d ≠ .halt := by
  cases op <;> exact Instr.noConfusion

/-- The sequence of R165 has the ends of an arithmetic instruction. -/
theorem InstrEffect.arith (op : AluOp) (x y d : Word) (s : State) :
    InstrEffect s (arithInstr op x y d) (arith op x y d s) := by
  rcases arith_cases op x y d s with ⟨-, e⟩ | ⟨v, s1, hx, -, e⟩ | ⟨v, s1, w, s2, hx, hy, e⟩ <;> rw [e]
  · exact .stop (arithInstr_ne_halt op x y d) (by simp) x
  · obtain ⟨vx, -, rfl⟩ := memRead_eq_some.mp hx
    exact .stopAtSecondSource op y d vx
  · obtain ⟨vx, -, rfl⟩ := memRead_eq_some.mp hx
    obtain ⟨vy, -, rfl⟩ := memRead_eq_some.mp hy
    rcases finishArith_cases d (alu op v w) ((s.afterRead x).afterRead y) with
      ⟨-, e⟩ | ⟨-, hd, e⟩ | ⟨-, -, e⟩ <;> rw [e]
    · exact .warn op d vx vy
    · exact .storeResult op vx vy hd _
    · exact .stopAtDestination op d vx vy _

/-- A jump leaves PC alone changed, taken or not (R191). -/
theorem InstrEffect.jumpWhen {i : Instr} (hi : i ≠ .halt) (c : Bool) (p : Word) (s : State) :
    InstrEffect s i (jumpWhen c p s) := by
  rw [jumpWhen_eq]
  exact .jump hi _

/-- A copy has an end if it has one for each register its selector may name (R183). -/
theorem InstrEffect.withRegister {i : Instr} (hi : i ≠ .halt) {sel : Word} {go : Reg → State → State} {s : State}
    (hgo : ∀ r, selectReg sel = some r → InstrEffect s i (go r s)) : InstrEffect s i (withRegister sel go s) := by
  unfold Machine.withRegister
  cases hr : selectReg sel with
  | none => exact .stop hi (by simp) sel
  | some r => exact hgo r hr

/-- Whatever an instruction does is one of its ends. -/
theorem exec_effect {i : Instr} {s t : State} (h : exec i s = .next t) : InstrEffect s i t := by
  cases i <;> cases h
  case halt => exact .halt
  case add x y d => exact .arith .add x y d s
  case sub x y d => exact .arith .sub x y d s
  case mul x y d => exact .arith .mul x y d s
  case div x y d => exact .arith .div x y d s
  case copyRegToMem sel d =>
    refine .withRegister (by simp) fun r _ => ?_
    by_cases hd : s.validAddress d
    · rw [memWrite_of_valid hd]
      exact .storeRegister hd _
    · rw [memWrite_eq_none.mpr hd]
      exact .stop (by simp) (by simp) d
  case copyMemToReg sel a =>
    refine .withRegister (by simp) fun r hr => ?_
    by_cases ha : s.validAddress a
    · rw [memRead_of_valid ha]
      exact .loadWord hr ha _
    · rw [memRead_eq_none.mpr ha]
      exact .stop (by simp) (by simp) a
  case copyImmediateToReg sel imm => exact .withRegister (by simp) fun r hr => .loadImmediate imm hr
  case jump p => exact .jumpWhen (by simp) true p s
  case jumpIfZero p => exact .jumpWhen (by simp) (acZero s.ac) p s
  case jumpIfNonzero p => exact .jumpWhen (by simp) (acNonzero s.ac) p s
  case jumpIfGt p => exact .jumpWhen (by simp) (acPositive s.ac) p s
  case jumpIfLt p => exact .jumpWhen (by simp) (acNegative s.ac) p s

end Sys2Proof.Machine

/-! The invariant of the block along a step (10_state.md rules R26, R28; 20_memory.md rules R96, R97). -/

namespace Sys2Proof.Machine

theorem StateInv.blockInv {s : State} (h : StateInv s) : BlockInv s where
  config := h.config
  progLen := h.progLen
  program := h.program
  store := h.mem.store
  faultRecord := h.faultRecord
  divz := h.divz
  lines := fun _ => h.mem

/-- Outside FAULTED the two invariants agree. -/
theorem BlockInv.stateInv {s : State} (h : BlockInv s) (hf : s.fsm ≠ .faulted) : StateInv s where
  config := h.config
  progLen := h.progLen
  program := h.program
  mem := h.lines hf
  faultRecord := h.faultRecord
  divz := h.divz

/-! ### What keeps `StateInv` in every state of the FSM -/

theorem StateInv.setMem {s : State} (h : StateInv s) {g : Hierarchy} (hg : HierarchyInv s.cfg g) :
    StateInv (setMem g s) := { h with mem := hg }

theorem StateInv.afterRead {s : State} (h : StateInv s) {a : Word} (ha : s.validAddress a) : StateInv (s.afterRead a) :=
  h.setMem (h.mem.read h.config (addressOf_lt ha))

theorem StateInv.afterWrite {s : State} (h : StateInv s) {a : Word} (ha : s.validAddress a) (v : Word) :
    StateInv (s.afterWrite a v) :=
  h.setMem (h.mem.write h.config (addressOf_lt ha) v)

theorem StateInv.setAc {s : State} (h : StateInv s) (v : Word) : StateInv (setAc v s) := { h with }

theorem StateInv.setIr {s : State} (h : StateInv s) (v : Word) : StateInv (setIr v s) := { h with }

theorem StateInv.setReg {s : State} (h : StateInv s) (r : Reg) (v : Word) : StateInv (setReg r v s) := by
  cases r <;> exact { h with }

theorem StateInv.emit {s : State} (h : StateInv s) (e : Event) : StateInv (emit e s) := { h with }

/-- The warning's count grows together with the sticky bit (R27, R29, R202). -/
theorem StateInv.warnDivisionByZero {s : State} (h : StateInv s) : StateInv (warnDivisionByZero s) :=
  { h with divz := nofun }

/-! ### What keeps it outside FAULTED -/

/-- Outside FAULTED the fault record does not speak of PC (R28). -/
theorem StateInv.setPc {s : State} (h : StateInv s) (hf : s.fsm ≠ .faulted) (v : Word) : StateInv (setPc v s) :=
  { h with faultRecord := ⟨h.faultRecord.1, fun e => absurd e hf⟩ }

theorem StateInv.advance {s : State} (h : StateInv s) (hf : s.fsm ≠ .faulted) : StateInv (advance s) := h.setPc hf _

/-- The FSM may go anywhere but to FAULTED, which needs a record (R26, R28). -/
theorem StateInv.setFsm {s : State} (h : StateInv s) (hf : s.fsm ≠ .faulted) {f : FsmState} (hf' : f ≠ .faulted) :
    StateInv (setFsm f s) :=
  { h with faultRecord := ⟨fun _ => h.faultRecord.1 hf, fun e => absurd e hf'⟩ }

/-- A hard stop records its cause and PC (R28, R205); of the lines nothing is claimed any more (I3). -/
theorem StateInv.raise {s : State} (h : StateInv s) {e : Cause} (he : e ≠ .divisionByZero) (info : Word) :
    BlockInv (raise e info s) :=
  { h.blockInv with
    faultRecord := ⟨fun hf => absurd rfl hf, fun _ => ⟨rfl, by cases e <;> simp at he ⊢⟩⟩
    lines := fun hf => absurd rfl hf }

/-- Every end of an instruction keeps the invariant, from a state that is not FAULTED. -/
theorem InstrEffect.blockInv {i : Instr} {s t : State} (he : InstrEffect s i t) (h : StateInv s)
    (hf : s.fsm ≠ .faulted) : BlockInv t := by
  cases he with
  | halt => exact ((h.setFsm hf (by simp)).emit _).blockInv
  | jump _ p => exact (h.setPc hf p).blockInv
  | loadImmediate imm _ => exact ((h.setReg _ imm).advance (by simpa using hf)).blockInv
  | loadWord _ ha v => exact (((h.afterRead ha).setReg _ v).advance (by simpa using hf)).blockInv
  | storeRegister hd v => exact ((h.afterWrite hd v).advance hf).blockInv
  | stop _ hc info => exact h.raise hc info
  | stopAtSecondSource _ y _ hx => exact (h.afterRead hx).raise (by simp) y
  | warn _ _ hx hy => exact (((h.afterRead hx).afterRead hy).setAc 0).warnDivisionByZero.blockInv
  | storeResult _ hx hy hd v =>
    exact (((((h.afterRead hx).afterRead hy).setAc v).afterWrite hd v).advance hf).blockInv
  | stopAtDestination _ d hx hy v => exact (((h.afterRead hx).afterRead hy).setAc v).raise (by simp) d

/-- Settles O48: a step starts in RUN, where the lines are covered too, and each of its ends keeps the invariant. -/
theorem stepKeepsTheBlockInvariant : Obligations.StepKeepsTheBlockInvariant := by
  intro s t hb h
  obtain ⟨hrun, hcases⟩ := step_cases h
  have hf : s.fsm ≠ .faulted := by simp [hrun]
  have hs : StateInv s := hb.stateInv hf
  rcases hcases with ⟨-, rfl⟩ | ⟨w, i, -, -, -, hexec⟩ | ⟨w, op, -, -, -, rfl⟩
  · exact ((hs.setFsm hf (by simp)).emit _).blockInv
  · exact (exec_effect hexec).blockInv (hs.setIr _) hf
  · exact (hs.setIr _).raise (by simp) op

end Sys2Proof.Machine

/-! What a step leaves unchanged, and how it enters each state of the FSM (10_state.md rules R21, R22, R26, R35, R38;
40_dispatch.md rule R147). -/

namespace Sys2Proof.Machine

theorem selectReg_eq_r1 {sel : Word} (h : selectReg sel = some .r1) : s32 sel = 1 := by
  rcases selectReg_cases sel with ⟨h1, -⟩ | ⟨-, e⟩ | ⟨-, -, e⟩
  · exact h1
  · simp [e] at h
  · simp [e] at h

theorem selectReg_eq_r2 {sel : Word} (h : selectReg sel = some .r2) : s32 sel = 2 := by
  rcases selectReg_cases sel with ⟨-, e⟩ | ⟨h2, -⟩ | ⟨-, -, e⟩
  · simp [e] at h
  · exact h2
  · simp [e] at h

/-- Settles O40: of an instruction's ends only those of the arithmetic sequence write AC. -/
theorem onlyArithmeticWritesAc : Obligations.OnlyArithmeticWritesAc := by
  intro i s t hi h
  cases exec_effect h
  case stopAtSecondSource op x y d _ => exact absurd rfl (hi op x y d)
  case warn op x y d _ _ => exact absurd rfl (hi op x y d)
  case storeResult op x y d _ _ _ _ => exact absurd rfl (hi op x y d)
  case stopAtDestination op x y d _ _ _ => exact absurd rfl (hi op x y d)
  case halt | jump | loadImmediate | loadWord | storeRegister | stop => simp

/-- R1 has its old value after every end but a load with R1 selected (R22). -/
theorem InstrEffect.r1 {i : Instr} {s t : State} (he : InstrEffect s i t)
    (hi : ∀ sel v, s32 sel = 1 → i ≠ .copyImmediateToReg sel v ∧ i ≠ .copyMemToReg sel v) : t.r1 = s.r1 := by
  cases he
  case loadImmediate sel imm r hr =>
    cases r
    · exact absurd rfl (hi sel imm (selectReg_eq_r1 hr)).1
    · simp
  case loadWord sel a r hr _ _ =>
    cases r
    · exact absurd rfl (hi sel a (selectReg_eq_r1 hr)).2
    · simp
  case halt | jump | storeRegister | stop | stopAtSecondSource | warn | storeResult | stopAtDestination => simp

/-- R2 has its old value after every end but a load with R2 selected (R22). -/
theorem InstrEffect.r2 {i : Instr} {s t : State} (he : InstrEffect s i t)
    (hi : ∀ sel v, s32 sel = 2 → i ≠ .copyImmediateToReg sel v ∧ i ≠ .copyMemToReg sel v) : t.r2 = s.r2 := by
  cases he
  case loadImmediate sel imm r hr =>
    cases r
    · simp
    · exact absurd rfl (hi sel imm (selectReg_eq_r2 hr)).1
  case loadWord sel a r hr _ _ =>
    cases r
    · simp
    · exact absurd rfl (hi sel a (selectReg_eq_r2 hr)).2
  case halt | jump | storeRegister | stop | stopAtSecondSource | warn | storeResult | stopAtDestination => simp

/-- Settles O41: the two loads write the register their selector names and no other end writes one. -/
theorem onlyCopiesToRegistersWriteThem : Obligations.OnlyCopiesToRegistersWriteThem :=
  fun _ _ _ h => ⟨(exec_effect h).r1, (exec_effect h).r2⟩

/-- No end of an instruction touches what the host latched (R35, R38). -/
theorem InstrEffect.latched {i : Instr} {s t : State} (he : InstrEffect s i t) :
    t.cfg = s.cfg ∧ t.program = s.program ∧ t.progLen = s.progLen := by
  cases he <;> simp

/-- Settles O43: neither the ends of an instruction nor the two ends without one change what the host latched. -/
theorem stepKeepsConfigurationAndProgram : Obligations.StepKeepsConfigurationAndProgram := by
  intro s t h
  obtain ⟨-, ⟨-, rfl⟩ | ⟨w, i, -, -, -, hexec⟩ | ⟨w, op, -, -, -, rfl⟩⟩ := step_cases h
  · exact ⟨rfl, rfl, rfl⟩
  · exact (exec_effect hexec).latched
  · exact ⟨rfl, rfl, rfl⟩

/-- How an instruction leaves the FSM: as it was, with at most a warning; in HALTED, by HALT; or in FAULTED, with the
fault's event and PC where it was (R146, R202, R205). -/
theorem InstrEffect.fsm_cases {i : Instr} {s t : State} (he : InstrEffect s i t) :
    (i ≠ .halt ∧ t.fsm = s.fsm ∧ (t.events = s.events ∨ ∃ e pc, t.events = s.events ++ [.warn e pc])) ∨
    (i = .halt ∧ t.fsm = .halted ∧ t.events = s.events ++ [.done] ∧ t.pc = s.pc) ∨
    (i ≠ .halt ∧ t.fsm = .faulted ∧ (∃ e info, t.events = s.events ++ [.fault e info]) ∧ t.pc = s.pc) := by
  cases he with
  | halt => exact .inr (.inl ⟨rfl, rfl, rfl, rfl⟩)
  | jump hi p => exact .inl ⟨hi, rfl, .inl rfl⟩
  | loadImmediate => exact .inl (by simp)
  | loadWord => exact .inl (by simp)
  | storeRegister => exact .inl (by simp)
  | stop hi _ info => exact .inr (.inr ⟨hi, rfl, ⟨_, info, rfl⟩, rfl⟩)
  | stopAtSecondSource op y d => exact .inr (.inr ⟨arithInstr_ne_halt op _ y d, rfl, ⟨_, y, rfl⟩, rfl⟩)
  | warn op d => exact .inl ⟨arithInstr_ne_halt op _ _ d, rfl, .inr ⟨_, _, rfl⟩⟩
  | storeResult op => exact .inl ⟨arithInstr_ne_halt op _ _ _, rfl, .inl rfl⟩
  | stopAtDestination op d => exact .inr (.inr ⟨arithInstr_ne_halt op _ _ d, rfl, ⟨_, d, rfl⟩, rfl⟩)

/-- Settles O44: the bound check, HALT and the fault entry are told apart by the FSM state and the event each leaves. -/
theorem fsmStatesAreEnteredAsR26Says : Obligations.FsmStatesAreEnteredAsR26Says := by
  intro s t h
  obtain ⟨hrun, ⟨hb, rfl⟩ | ⟨w, i, hb, hw, hd, hexec⟩ | ⟨w, op, hb, hw, hd, rfl⟩⟩ := step_cases h
  case inl => simp [hrun, hb, enterBound]
  case inr.inl =>
    rcases (exec_effect hexec).fsm_cases with ⟨hi, hf, he⟩ | ⟨rfl, hf, he, hpc⟩ | ⟨hi, hf, ⟨e, info, he⟩, hpc⟩
    · rcases he with he | ⟨e, pc, he⟩ <;> simp [hrun, hb, hw, hd, hi, hf, he]
    · simp [hrun, hb, hw, hd, hf, he, hpc]
    · simp [hrun, hb, hw, hd, hi, hf, he, hpc]
  case inr.inr => simp [hrun, hb, hw, hd]

end Sys2Proof.Machine

/-! What a read access answers, and that the caches are invisible to programs (10_state.md rule R41; 20_memory.md rule
R98). -/

namespace Sys2Proof.Machine

/-- Under the invariant a read access answers the store's word (R98). -/
theorem StateInv.read_value {s : State} (h : StateInv s) {a : Word} (ha : s.validAddress a) :
    (s.mem.read s.cfg (addressOf a)).1 = s.word (addressOf a) :=
  h.mem.read_value h.config (addressOf_lt ha)

/-- Settles O34: the access takes the read path, whose word is the store's under the invariant. -/
theorem readReturnsTheStoresWord : Obligations.ReadReturnsTheStoresWord := by
  intro s a h ha
  refine ⟨s.afterRead a, ?_, rfl, Hierarchy.read_store ..⟩
  rw [memRead_of_valid ha, h.read_value ha]

/-! ### The arithmetic sequence in terms of the store -/

theorem arith_of_badFirst (op : AluOp) {s : State} {x : Word} (hx : ¬ s.validAddress x) (y d : Word) :
    arith op x y d s = raise .outOfBounds x s := by
  simp [arith, memRead_eq_none.mpr hx]

theorem arith_of_badSecond (op : AluOp) {s : State} {x y : Word} (hx : s.validAddress x) (hy : ¬ s.validAddress y)
    (d : Word) : arith op x y d s = raise .outOfBounds y (s.afterRead x) := by
  have hy' : ¬ (s.afterRead x).validAddress y := hy
  simp [arith, memRead_of_valid hx, memRead_eq_none.mpr hy']

/-- The alu works on the store's words, the second read included: the first one leaves the store as it is. -/
theorem arith_of_goodSources (op : AluOp) {s : State} (h : StateInv s) {x y : Word} (hx : s.validAddress x)
    (hy : s.validAddress y) (d : Word) :
    arith op x y d s =
      finishArith d (alu op (s.word (addressOf x)) (s.word (addressOf y))) ((s.afterRead x).afterRead y) := by
  have hy' : (s.afterRead x).validAddress y := hy
  have hword : (s.afterRead x).word (addressOf y) = s.word (addressOf y) := by simp [State.word]
  unfold arith
  rw [memRead_of_valid hx]
  dsimp only
  rw [memRead_of_valid hy']
  dsimp only
  rw [h.read_value hx, (h.afterRead hx).read_value hy', hword]

/-! ### States that agree in everything but the hidden state -/

namespace SameButHidden

variable {s t : State}

theorem validAddress_iff (h : SameButHidden s t) (a : Word) : s.validAddress a ↔ t.validAddress a := by
  simp [State.validAddress, h.cfg]

theorem word (h : SameButHidden s t) (a : Nat) : s.word a = t.word a := by simp [State.word, h.store]

theorem getReg (h : SameButHidden s t) (r : Reg) : getReg r s = getReg r t := by
  cases r
  · exact h.r1
  · exact h.r2

theorem pcInBounds (h : SameButHidden s t) : pcInBounds s = pcInBounds t := by
  simp [Machine.pcInBounds, h.pc, h.progLen]

theorem fetch (h : SameButHidden s t) : fetch s = fetch t := by simp [Machine.fetch, h.pc, h.program]

/-! Each update keeps the agreement -/

theorem setAc (h : SameButHidden s t) (v : Word) : SameButHidden (setAc v s) (setAc v t) := { h with ac := rfl }

theorem setIr (h : SameButHidden s t) (v : Word) : SameButHidden (setIr v s) (setIr v t) := { h with ir := rfl }

theorem setPc (h : SameButHidden s t) (v : Word) : SameButHidden (setPc v s) (setPc v t) := { h with pc := rfl }

theorem setFsm (h : SameButHidden s t) (f : FsmState) : SameButHidden (setFsm f s) (setFsm f t) := { h with fsm := rfl }

theorem setReg (h : SameButHidden s t) (r : Reg) (v : Word) : SameButHidden (setReg r v s) (setReg r v t) := by
  cases r
  · exact { h with r1 := rfl }
  · exact { h with r2 := rfl }

theorem emit (h : SameButHidden s t) (e : Event) : SameButHidden (emit e s) (emit e t) :=
  { h with events := by simp [h.events] }

theorem advance (h : SameButHidden s t) : SameButHidden (advance s) (advance t) := { h with pc := by simp [h.pc] }

theorem raise (h : SameButHidden s t) (e : Cause) (info : Word) : SameButHidden (raise e info s) (raise e info t) :=
  { h with
    fault := by simp [h.pc]
    fsm := rfl
    events := by simp [h.events] }

theorem warnDivisionByZero (h : SameButHidden s t) :
    SameButHidden (warnDivisionByZero s) (warnDivisionByZero t) :=
  { h with
    divz := rfl
    divzCount := by simp [h.divzCount]
    events := by simp [h.events, h.pc] }

theorem afterRead (h : SameButHidden s t) (a : Word) : SameButHidden (s.afterRead a) (t.afterRead a) :=
  { h with store := by simp [h.store] }

theorem afterWrite (h : SameButHidden s t) (a v : Word) : SameButHidden (s.afterWrite a v) (t.afterWrite a v) :=
  { h with store := by simp [h.store] }

/-! Each shared part of the instructions keeps it -/

theorem jumpWhen (h : SameButHidden s t) (c : Bool) (p : Word) : SameButHidden (jumpWhen c p s) (jumpWhen c p t) := by
  rw [jumpWhen_eq, jumpWhen_eq, h.pc]
  exact h.setPc _

/-- A condition on AC comes out the same in both blocks (R190). -/
theorem jumpOnAc (h : SameButHidden s t) (condition : Word → Bool) (p : Word) :
    SameButHidden (Machine.jumpWhen (condition s.ac) p s) (Machine.jumpWhen (condition t.ac) p t) :=
  h.ac ▸ h.jumpWhen (condition s.ac) p

theorem withRegister (h : SameButHidden s t) (sel : Word) {go : Reg → State → State}
    (hgo : ∀ r, SameButHidden (go r s) (go r t)) : SameButHidden (withRegister sel go s) (withRegister sel go t) := by
  unfold Machine.withRegister
  cases selectReg sel with
  | none => exact h.raise _ sel
  | some r => exact hgo r

theorem finishArith (h : SameButHidden s t) (d : Word) (r : AluResult) :
    SameButHidden (finishArith d r s) (finishArith d r t) := by
  have hac := h.setAc r.result
  have hiff := hac.validAddress_iff d
  unfold Machine.finishArith storeResult
  cases r.divz
  case true => exact (h.setAc 0).warnDivisionByZero
  case false =>
    by_cases hd : (Machine.setAc r.result s).validAddress d
    · rw [memWrite_of_valid hd, memWrite_of_valid (hiff.mp hd)]
      exact (hac.afterWrite d _).advance
    · rw [memWrite_eq_none.mpr hd, memWrite_eq_none.mpr (mt hiff.mpr hd)]
      exact hac.raise _ d

/-- Both blocks stop at the same source, or go on with the same two words of their equal stores. -/
theorem arith (h : SameButHidden s t) (hs : StateInv s) (ht : StateInv t) (op : AluOp) (x y d : Word) :
    SameButHidden (arith op x y d s) (arith op x y d t) := by
  by_cases hx : s.validAddress x
  · have hx' := (h.validAddress_iff x).mp hx
    by_cases hy : s.validAddress y
    · have hy' := (h.validAddress_iff y).mp hy
      rw [arith_of_goodSources op hs hx hy, arith_of_goodSources op ht hx' hy', h.word, h.word]
      exact ((h.afterRead x).afterRead y).finishArith d _
    · rw [arith_of_badSecond op hx hy, arith_of_badSecond op hx' (mt (h.validAddress_iff y).mpr hy)]
      exact (h.afterRead x).raise _ y
  · rw [arith_of_badFirst op hx, arith_of_badFirst op (mt (h.validAddress_iff x).mpr hx)]
    exact h.raise _ x

end SameButHidden

/-! ### One instruction and one step -/

/-- An instruction cannot tell the two blocks apart. -/
theorem exec_sameButHidden {s t : State} (h : SameButHidden s t) (hs : StateInv s) (ht : StateInv t) (i : Instr) :
    outcomesRelated SameButHidden (exec i s) (exec i t) := by
  cases i
  case halt => exact (h.setFsm _).emit _
  case add x y d => exact h.arith hs ht .add x y d
  case sub x y d => exact h.arith hs ht .sub x y d
  case mul x y d => exact h.arith hs ht .mul x y d
  case div x y d => exact h.arith hs ht .div x y d
  case copyRegToMem sel d =>
    refine h.withRegister sel fun r => ?_
    by_cases hd : s.validAddress d
    · rw [memWrite_of_valid hd, memWrite_of_valid ((h.validAddress_iff d).mp hd), h.getReg]
      exact (h.afterWrite d _).advance
    · rw [memWrite_eq_none.mpr hd, memWrite_eq_none.mpr (mt (h.validAddress_iff d).mpr hd)]
      exact h.raise _ d
  case copyMemToReg sel a =>
    refine h.withRegister sel fun r => ?_
    by_cases ha : s.validAddress a
    · have ha' := (h.validAddress_iff a).mp ha
      rw [memRead_of_valid ha, memRead_of_valid ha', hs.read_value ha, ht.read_value ha', h.word]
      exact ((h.afterRead a).setReg r _).advance
    · rw [memRead_eq_none.mpr ha, memRead_eq_none.mpr (mt (h.validAddress_iff a).mpr ha)]
      exact h.raise _ a
  case copyImmediateToReg sel imm => exact h.withRegister sel fun r => (h.setReg r imm).advance
  case jump p => exact h.jumpWhen true p
  case jumpIfZero p => exact h.jumpOnAc acZero p
  case jumpIfNonzero p => exact h.jumpOnAc acNonzero p
  case jumpIfGt p => exact h.jumpOnAc acPositive p
  case jumpIfLt p => exact h.jumpOnAc acNegative p

theorem runWord_sameButHidden {s t : State} (h : SameButHidden s t) (hs : StateInv s) (ht : StateInv t)
    (w : InstrWord) : outcomesRelated SameButHidden (runWord w s) (runWord w t) := by
  unfold runWord
  match decode w with
  | .ok i => exact exec_sameButHidden (h.setIr _) (hs.setIr _) (ht.setIr _) i
  | .error (.illegalOpcode op) => exact (h.setIr _).raise _ op

/-- The bound check and the fetch read only what the two blocks share. -/
theorem stepInRun_sameButHidden {s t : State} (h : SameButHidden s t) (hs : StateInv s) (ht : StateInv t) :
    outcomesRelated SameButHidden (stepInRun s) (stepInRun t) := by
  unfold stepInRun
  rw [← h.pcInBounds, ← h.fetch, ← h.pc]
  cases pcInBounds s with
  | false => exact (h.setFsm _).emit _
  | true =>
    cases fetch s with
    | none => rfl
    | some w => exact runWord_sameButHidden h hs ht w

/-- Settles O50: in RUN by the lemma on `stepInRun`; in the other states both blocks answer the same stop. -/
theorem cachesAreInvisibleToPrograms : Obligations.CachesAreInvisibleToPrograms := by
  intro s t hs ht h
  unfold step dispatchStep
  rw [← h.fsm]
  cases s.fsm with
  | run => exact stepInRun_sameButHidden h hs ht
  | idle | halted | bound | faulted => rfl

end Sys2Proof.Machine

/-! POWER_ON_RESET with the host's words (10_state.md rule R37; 30_encoding.md rule R121), and what the host reads
(10_state.md rules R26, R27, R36). -/

namespace Sys2Proof.Machine

/-! ### The store of the host's words -/

/-- A word of a fitting integer reads as that integer (R121). -/
theorem s32_w32 {n : Int} (h : fitsWord n = true) : s32 (w32 n) = n := by
  simp only [fitsWord, Bool.and_eq_true, decide_eq_true_eq] at h
  rw [s32, w32, BitVec.toInt_ofInt]
  exact Int.bmod_eq_of_le (by omega) (by omega)

/-- One word for each address of the store (R37). -/
theorem StoreInv.ofWords {c : Config} {vs : List Word} (h : vs.length = c.storeWords) :
    StoreInv c (Memory.ofWords 0 vs) := by
  obtain ⟨hwf, hrange, -⟩ := Memory.ofWords_spec 0 vs
  exact ⟨hwf, fun x hx => by have := hrange x hx; omega⟩

theorem Memory.read_ofWords (vs : List Word) (a : Nat) :
    (Memory.ofWords 0 vs).read a = (vs[a]?).getD Memory.unlisted := by
  obtain ⟨-, -, hread⟩ := Memory.ofWords_spec 0 vs
  simpa using hread a

theorem StoreInit.store_of_fits {c : Config} {ws : List Int} (hlen : ws.length = c.storeWords)
    (hfit : ∀ n ∈ ws, fitsWord n = true) : (StoreInit.words ws).store c = .ok (Memory.ofWords 0 (ws.map w32)) := by
  simp only [StoreInit.store, hlen, ne_eq, not_true_eq_false, if_false, List.all_eq_true.mpr hfit, if_true]

theorem StoreInit.store_of_unfit {c : Config} {ws : List Int} (hlen : ws.length = c.storeWords)
    (hunfit : ∃ n ∈ ws, fitsWord n = false) : (StoreInit.words ws).store c = .error .integerOutOfRange := by
  simp only [StoreInit.store, hlen, ne_eq, not_true_eq_false, if_false, List.all_eq_false.mpr (by simpa using hunfit),
    Bool.false_eq_true]

/-- A `STORE_INIT` that stands for no store is refused for the reason it gives. -/
theorem powerOnReset_of_noStore {c : Config} {init : StoreInit} {r : Refusal} (hc : c.wellFormed = true)
    (hr : init.store c = .error r) (s : State) : powerOnReset c init s = .refused r := by
  simp [powerOnReset, hc, hr]

/-- Settles O52: the host's words make a store that meets the store's invariant and reads back as the integers. -/
theorem powerOnResetStoresTheHostsWords : Obligations.PowerOnResetStoresTheHostsWords := by
  intro c ws s hc hlen
  refine ⟨fun hfit => ?_, fun hunfit => powerOnReset_of_noStore hc (StoreInit.store_of_unfit hlen hunfit) s⟩
  refine ⟨_, powerOnReset_of_store hc (StoreInit.store_of_fits hlen hfit) s,
    BlockInv.poweredOn hc (StoreInv.ofWords (by simpa using hlen)), AccessCountersAgree.poweredOn c _,
    ClearedByPowerOn.poweredOn c _, fun a n hn => ?_⟩
  rw [State.word_poweredOn, Memory.read_ofWords, List.getElem?_map, hn]
  exact s32_w32 (hfit n (List.mem_of_getElem? hn))

/-! ### A stopped block -/

/-- Settles O9: outside RUN each state answers its own stop. -/
theorem stoppedBlockTakesNoStep : Obligations.StoppedBlockTakesNoStep := by
  intro s hf
  unfold step dispatchStep
  cases h : s.fsm with
  | run => exact absurd h hf
  | idle | halted | bound | faulted => rfl

/-! ### STATUS -/

/-- The bits of STATUS (R27). -/
theorem State.status_getLsbD (s : State) (i : Nat) :
    s.status.getLsbD i =
      if i < 3 then s.fsm.code.getLsbD i else if i = 3 then s.divz else if i = 4 then s.fsm.done else false := by
  have happend : s.status.getLsbD i =
      @BitVec.getLsbD (27 + 1 + 1 + 3)
        ((0 : BitVec 27) ++ BitVec.ofBool s.fsm.done ++ BitVec.ofBool s.divz ++ s.fsm.code) i := rfl
  rw [happend, BitVec.getLsbD_append, BitVec.getLsbD_append, BitVec.getLsbD_append]
  rcases (by omega : i < 3 ∨ i = 3 ∨ i = 4 ∨ 5 ≤ i) with h | rfl | rfl | h
  · simp [h]
  · simp
  · simp
  · simp [show ¬ i < 3 by omega, show ¬ i - 3 < 1 by omega, show ¬ i - 3 - 1 < 1 by omega, show i ≠ 3 by omega,
      show i ≠ 4 by omega]

/-- Settles O56: STATUS is read bit by bit, and then by cases on the five states. -/
theorem statusShowsItsFields : Obligations.StatusShowsItsFields := by
  intro s
  refine ⟨?state, ?divz, ?done, ?zero⟩
  case state =>
    have h : s.status.extractLsb' 0 3 = s.fsm.code := by
      refine BitVec.eq_of_getLsbD_eq fun i hi => ?_
      simp [State.status_getLsbD, hi]
    rw [h]
    cases s.fsm <;> rfl
  case divz => exact State.status_getLsbD s 3
  case done =>
    rw [State.status_getLsbD]
    cases s.fsm <;> simp [FsmState.done]
  case zero =>
    refine BitVec.eq_of_getLsbD_eq fun i hi => ?_
    rw [BitVec.getLsbD_extractLsb', State.status_getLsbD, if_neg (by omega), if_neg (by omega), if_neg (by omega)]
    simp

/-! ### The numbered registers and the inspection ports -/

/-- A configuration value that fits its register is read as it is (R36). -/
theorem readConfig_toNat {width value : Nat} (number : Nat) (hw : width ≤ 64) (h : value < 2 ^ width) :
    (readConfig number width value).toNat = value := by
  have h64 : 2 ^ width ≤ 2 ^ 64 := Nat.pow_le_pow_right (by decide) hw
  rw [readConfig, if_pos h, BitVec.toNat_ofNat]
  exact Nat.mod_eq_of_lt (by omega)

/-- An unassigned number reads 0 (R36). -/
theorem readRegister_unassigned (s : State) {n : Nat}
    (h : (0x0A ≤ n ∧ n ≤ 0x0F) ∨ (0x15 ≤ n ∧ n ≤ 0x17) ∨ (0x1E ≤ n ∧ n ≤ 0x1F) ∨ 0x29 ≤ n) : readRegister s n = 0 := by
  unfold readRegister
  split
  case h_31 => rfl
  all_goals omega

/-- Settles O57: every assigned register is its field, the configuration ones where the value fits. -/
theorem hostReadsTheNumberedRegisters : Obligations.HostReadsTheNumberedRegisters := by
  intro s
  refine ⟨rfl, rfl, rfl, rfl, rfl, rfl, rfl, rfl, rfl, rfl, rfl, rfl, rfl, rfl, rfl, rfl, rfl, rfl, rfl, rfl, rfl,
    readConfig_toNat 0x20 (by decide), readConfig_toNat 0x21 (by decide), readConfig_toNat 0x22 (by decide),
    readConfig_toNat 0x23 (by decide), readConfig_toNat 0x24 (by decide), readConfig_toNat 0x25 (by decide),
    readConfig_toNat 0x26 (by decide), readConfig_toNat 0x27 (by decide), readConfig_toNat 0x28 (by decide),
    fun n => readRegister_unassigned s⟩

theorem lineState_of_line {s : State} {level i : Nat} {c : Level} {l : Line} (hc : s.mem.level? level = some c)
    (hl : c.lines[i]? = some l) : lineState level i s = .ok l := by
  simp [lineState, hc, hl]

theorem lineState_of_noLine {s : State} {level i : Nat} {c : Level} (hc : s.mem.level? level = some c)
    (hi : c.lines.length ≤ i) : lineState level i s = .error .noSuchLine := by
  simp [lineState, hc, hi]

/-- There are levels 1, 2 and 3 and no other (R217). -/
theorem Hierarchy.level?_eq_none {h : Hierarchy} {level : Nat} (hl : level = 0 ∨ 4 ≤ level) :
    h.level? level = none := by
  unfold Hierarchy.level?
  split
  case h_4 => rfl
  all_goals omega

/-- Settles O58: each level's lines by its number, and the store's words by R64. -/
theorem hostInspectsLinesAndWords : Obligations.HostInspectsLinesAndWords := by
  intro s
  refine ⟨fun i l => lineState_of_line rfl, fun i l => lineState_of_line rfl, fun i l => lineState_of_line rfl,
    fun i => lineState_of_noLine rfl, fun i => lineState_of_noLine rfl, fun i => lineState_of_noLine rfl,
    fun level i hl => ?noLevel, fun a ha => ?word, fun a ha => ?noWord⟩
  case noLevel => simp [lineState, Hierarchy.level?_eq_none hl]
  case word => simp [storeWord, storeReadWord, ha, State.word]
  case noWord => simp [storeWord, storeReadWord, Nat.not_lt.mpr ha]

end Sys2Proof.Machine

/-! What one access does to a cache level: the line it writes, the counters and the blocks the level holds afterwards
(20_memory.md rules R71 to R77, R86 to R88). -/

namespace Sys2Proof.Machine

/-! ### The outcome of a probe -/

theorem Level.resident_of_hit {c : Level} {b i : Nat} (h : c.find b = some i) : c.resident b = true := by
  rw [← Level.find_isSome, h]
  rfl

theorem Level.resident_of_miss {c : Level} {b : Nat} (h : c.find b = none) : c.resident b = false := by
  rw [← Level.find_isSome, h]
  rfl

@[simp] theorem Level.probe_hits (c : Level) (b : Nat) :
    (c.probe b).2.hits = if c.resident b then c.hits + 1 else c.hits :=
  (c.probe_counts b).2.1

@[simp] theorem Level.probe_misses (c : Level) (b : Nat) :
    (c.probe b).2.misses = if c.resident b then c.misses else c.misses + 1 :=
  (c.probe_counts b).2.2

theorem Level.probe_of_hit {c : Level} {b i : Nat} (h : c.find b = some i) :
    (c.probe b).2 = { c with hits := c.hits + 1 } := by
  simp [Level.probe, h, Level.count]

theorem Level.probe_of_miss {c : Level} {b : Nat} (h : c.find b = none) :
    (c.probe b).2 = { c with misses := c.misses + 1 } := by
  simp [Level.probe, h, Level.count]

theorem Line.holds_iff {b : Nat} {l : Line} : l.holds b = true ↔ l.valid = true ∧ l.tag = tagOf b := by
  simp [Line.holds]

/-- The scan answers the first line, in index order, that holds the block, and only that one (R71). -/
theorem Level.find_eq_some_iff {c : Level} {b i : Nat} :
    c.find b = some i ↔
      (∃ l, c.lines[i]? = some l ∧ l.valid = true ∧ l.tag = tagOf b) ∧
        ∀ (j : Nat) (l : Line), j < i → c.lines[j]? = some l → ¬ (l.valid = true ∧ l.tag = tagOf b) := by
  constructor
  · intro h
    exact ⟨Level.find_some h, fun j l hj hl => by rw [← Line.holds_iff, Level.find_some_first h hj hl]; simp⟩
  · rintro ⟨⟨x, hx, hholds⟩, hfirst⟩
    obtain ⟨hi, rfl⟩ := List.getElem?_eq_some_iff.mp hx
    refine List.findIdx?_eq_some_iff_getElem.mpr ⟨hi, Line.holds_iff.mpr hholds, fun j hj => ?_⟩
    rw [Line.holds_iff]
    exact hfirst j _ hj (List.getElem?_eq_getElem (hj.trans hi))

/-- Settles O31: the counter by the two outcomes, the line found by the scan's characterisation. -/
theorem probeCountsOnceAndChangesNoLine : Obligations.ProbeCountsOnceAndChangesNoLine := by
  intro c b
  refine ⟨?counted, fun i => Level.find_eq_some_iff⟩
  case counted =>
    change (c.probe b).2 = if c.resident b then _ else _
    cases h : c.find b with
    | some i => rw [Level.probe_of_hit h, if_pos (Level.resident_of_hit h)]
    | none => simp [Level.probe_of_miss h, Level.resident_of_miss h]

/-! ### The victim and the line fill -/

/-- The victim is the first invalid line, where there is one (R74). -/
theorem Level.victim_eq_of_firstInvalid {c : Level} {i : Nat} {l : Line} (hl : c.lines[i]? = some l)
    (hinvalid : l.valid = false)
    (hbefore : ∀ (j : Nat) (k : Line), j < i → c.lines[j]? = some k → k.valid = true) : c.victim = i := by
  obtain ⟨hi, rfl⟩ := List.getElem?_eq_some_iff.mp hl
  have hfind : c.lines.findIdx? (fun l => !l.valid) = some i :=
    List.findIdx?_eq_some_iff_getElem.mpr
      ⟨hi, by simp [hinvalid], fun j hj => by simp [hbefore j _ hj (List.getElem?_eq_getElem (hj.trans hi))]⟩
  simp [Level.victim, hfind]

/-- Settles O32: a line before the victim with the victim's timestamp would break the tie rule of `victim_least`. -/
theorem victimIsFirstEmptyElseLeastRecentlyUsed : Obligations.VictimIsFirstEmptyElseLeastRecentlyUsed := by
  intro c hlines
  refine ⟨fun i l => Level.victim_eq_of_firstInvalid, fun hvalid => ?_⟩
  have hv := List.getElem?_eq_getElem (Level.victim_lt hlines)
  refine ⟨_, hv, fun j l hl => ?_⟩
  obtain ⟨hle, htie⟩ := Level.victim_least hvalid hv hl
  refine ⟨hle, fun hj => lt_of_le_of_ne hle fun heq => ?_⟩
  have := htie (BitVec.eq_of_toNat_eq heq.symm)
  omega

theorem Level.install_get_victim {c : Level} (h : 0 < c.lines.length) (b : Nat) (blk : Block) (t : Counter) :
    (c.install b blk t).lines[c.victim]? = some ⟨true, tagOf b, blk, t⟩ := by
  simp [Level.install_eq_set, Level.victim_lt h]

theorem Level.install_get_other (c : Level) (b : Nat) (blk : Block) (t : Counter) {j : Nat} (h : j ≠ c.victim) :
    (c.install b blk t).lines[j]? = c.lines[j]? := by
  simp [Level.install_eq_set, List.getElem?_set_ne h.symm]

/-- Settles O33: an install sets one line of the level. -/
theorem installFillsOnlyTheVictim : Obligations.InstallFillsOnlyTheVictim :=
  fun c b blk t hlines =>
    ⟨Level.install_get_victim hlines b blk t, fun _ => Level.install_get_other c b blk t,
      Level.modifyLine_length c _ _, Level.install_hits c b blk t, Level.install_misses c b blk t⟩

/-! ### A level after its part of an access -/

/-- A level that a read hits: the line gets the time and the probe is counted (R71, R73). -/
theorem Level.touch_probe {c : Level} {b i : Nat} {x : Line} (h : c.find b = some i) (hx : c.lines[i]? = some x)
    (t : Counter) :
    (c.probe b).2.touch i t =
      { lines := c.lines.set i { x with lastUsed := t }, hits := c.hits + 1, misses := c.misses } := by
  rw [Level.touch_eq_set (c := (c.probe b).2) (by simpa using hx), Level.probe_of_hit h]

/-- A level that an access fills after a miss (R71, R75). -/
theorem Level.install_probe {c : Level} {b : Nat} (h : c.find b = none) (blk : Block) (t : Counter) :
    (c.probe b).2.install b blk t =
      { lines := c.lines.set c.victim ⟨true, tagOf b, blk, t⟩, hits := c.hits, misses := c.misses + 1 } := by
  rw [Level.install_eq_set, Level.victim_probe, Level.probe_of_miss h]

/-- A level that a write hits: the line gets the word and the time (R71, R76). -/
theorem Level.writeInPlace_probe {c : Level} {b i : Nat} {x : Line} (h : c.find b = some i)
    (hx : c.lines[i]? = some x) (k : Nat) (v : Word) (t : Counter) :
    (c.probe b).2.writeInPlace i k v t =
      { lines := c.lines.set i { x with data := x.data.set k v, lastUsed := t }
        hits := c.hits + 1
        misses := c.misses } := by
  rw [Level.writeInPlace_eq_set (c := (c.probe b).2) (by simpa using hx), Level.probe_of_hit h]

/-! ### The two write steps, by the outcome of their probe -/

theorem Level.writeAllocate_of_hit {c : Level} {b i : Nat} (h : c.find b = some i) (m : Memory) (k : Nat) (v : Word)
    (t : Counter) : c.writeAllocate m b k v t = (c.probe b).2.writeInPlace i k v t := by
  simp [Level.writeAllocate, h]

theorem Level.writeAllocate_of_miss {c : Level} {b : Nat} (h : c.find b = none) (m : Memory) (k : Nat) (v : Word)
    (t : Counter) : c.writeAllocate m b k v t = (c.probe b).2.install b ((m.block b).set k v) t := by
  simp [Level.writeAllocate, h]

theorem Level.writeNoAllocate_of_hit {c : Level} {b i : Nat} (h : c.find b = some i) (k : Nat) (v : Word)
    (t : Counter) : c.writeNoAllocate b k v t = (c.probe b).2.writeInPlace i k v t := by
  simp [Level.writeNoAllocate, h]

theorem Level.writeNoAllocate_of_miss {c : Level} {b : Nat} (h : c.find b = none) (k : Nat) (v : Word)
    (t : Counter) : c.writeNoAllocate b k v t = (c.probe b).2 := by
  simp [Level.writeNoAllocate, h]

/-- Step 2 of the write path counts its probe and nothing else (R86). -/
theorem Level.writeAllocate_counts (c : Level) (m : Memory) (b k : Nat) (v : Word) (t : Counter) :
    (c.writeAllocate m b k v t).hits = (c.probe b).2.hits ∧
      (c.writeAllocate m b k v t).misses = (c.probe b).2.misses := by
  cases h : c.find b with
  | some i => rw [Level.writeAllocate_of_hit h]; exact ⟨rfl, rfl⟩
  | none => rw [Level.writeAllocate_of_miss h]; exact ⟨rfl, rfl⟩

/-- Steps 3 and 4 of the write path count their probe and nothing else (R87, R88). -/
theorem Level.writeNoAllocate_counts (c : Level) (b k : Nat) (v : Word) (t : Counter) :
    (c.writeNoAllocate b k v t).hits = (c.probe b).2.hits ∧
      (c.writeNoAllocate b k v t).misses = (c.probe b).2.misses := by
  cases h : c.find b with
  | some i => rw [Level.writeNoAllocate_of_hit h]; exact ⟨rfl, rfl⟩
  | none => rw [Level.writeNoAllocate_of_miss h]; exact ⟨rfl, rfl⟩

/-! ### The blocks a level holds -/

/-- A level holds a block when one of its lines, by index, does. -/
theorem Level.resident_of_line {c : Level} {b i : Nat} {l : Line} (hl : c.lines[i]? = some l)
    (h : l.holds b = true) : c.resident b = true :=
  List.any_eq_true.mpr ⟨l, List.mem_of_getElem? hl, h⟩

@[simp] theorem Level.resident_probe (c : Level) (b b' : Nat) : (c.probe b).2.resident b' = c.resident b' := by
  simp [Level.resident]

/-- Changing an element in a way a test does not see keeps whether some element passes the test. -/
theorem any_modify_of_same {α : Type} {p : α → Bool} {f : α → α} (hf : ∀ x, p (f x) = p x) (xs : List α) (i : Nat) :
    (xs.modify i f).any p = xs.any p := by
  induction xs generalizing i with
  | nil => simp
  | cons x xs ih => cases i <;> simp [hf, ih]

/-- A change of a line that keeps its valid bit and its tag keeps the blocks the level holds. -/
theorem Level.resident_modifyLine (c : Level) (i b : Nat) {f : Line → Line}
    (hf : ∀ x : Line, (f x).holds b = x.holds b) : (c.modifyLine i f).resident b = c.resident b :=
  any_modify_of_same hf c.lines i

@[simp] theorem Level.resident_touch (c : Level) (i b : Nat) (t : Counter) :
    (c.touch i t).resident b = c.resident b :=
  c.resident_modifyLine i b fun _ => rfl

@[simp] theorem Level.resident_writeInPlace (c : Level) (i k b : Nat) (v : Word) (t : Counter) :
    (c.writeInPlace i k v t).resident b = c.resident b :=
  c.resident_modifyLine i b fun _ => rfl

/-- A level that has a line holds the block it was filled with (R75). -/
theorem Level.resident_install {c : Level} (h : 0 < c.lines.length) (b : Nat) (blk : Block) (t : Counter) :
    (c.install b blk t).resident b = true :=
  Level.resident_of_line (Level.install_get_victim h b blk t) (Line.holds_iff.mpr ⟨rfl, rfl⟩)

/-- After its step of a write L1 holds the block, by the update in place or by the fill (R86). -/
theorem Level.resident_writeAllocate {c : Level} (hlines : 0 < c.lines.length) (m : Memory) (b k : Nat) (v : Word)
    (t : Counter) : (c.writeAllocate m b k v t).resident b = true := by
  cases h : c.find b with
  | some i => simp [Level.writeAllocate_of_hit h, Level.resident_of_hit h]
  | none => rw [Level.writeAllocate_of_miss h]; exact Level.resident_install (by simpa using hlines) ..

/-- A level that already holds the block is not filled (R86). -/
theorem Level.resident_writeAllocate_of_resident {c : Level} {b : Nat} (hb : c.resident b = true) (m : Memory)
    (k : Nat) (v : Word) (t : Counter) (b' : Nat) : (c.writeAllocate m b k v t).resident b' = c.resident b' := by
  obtain ⟨i, h⟩ := Option.isSome_iff_exists.mp ((c.find_isSome b).trans hb)
  simp [Level.writeAllocate_of_hit h]

/-- A step without allocate keeps the blocks the level holds (R87, R88). -/
@[simp] theorem Level.resident_writeNoAllocate (c : Level) (b k : Nat) (v : Word) (t : Counter) (b' : Nat) :
    (c.writeNoAllocate b k v t).resident b' = c.resident b' := by
  cases h : c.find b with
  | some i => simp [Level.writeNoAllocate_of_hit h]
  | none => simp [Level.writeNoAllocate_of_miss h]

end Sys2Proof.Machine

/-! What the arbiter's read path, write path and statistics reset do to the counters, the lines and the resident blocks
(20_memory.md rules R79 to R93, R99, R100). -/

namespace Sys2Proof.Machine

/-! ### The arbiter's counters -/

@[simp] theorem Hierarchy.tick_stats (h : Hierarchy) :
    h.tick.stats =
      { h.stats with
        globalTime := h.stats.globalTime + 1
        totalAccesses := h.stats.totalAccesses + 1 } := rfl

@[simp] theorem Hierarchy.countHit_stats (h : Hierarchy) :
    h.countHit.stats = { h.stats with totalHits := h.stats.totalHits + 1 } := rfl

@[simp] theorem Hierarchy.countMiss_stats (h : Hierarchy) :
    h.countMiss.stats = { h.stats with totalMisses := h.stats.totalMisses + 1 } := rfl

@[simp] theorem Hierarchy.charge_stats (n : Nat) (h : Hierarchy) :
    (h.charge n).stats = { h.stats with totalTime := h.stats.totalTime + BitVec.ofNat 64 n } := rfl

/-! ### The read path -/

/-- Settles O35: on each path of the read the probes decide which levels hold the block, and so every counter. -/
theorem readCountsByTheLevelThatHits : Obligations.ReadCountsByTheLevelThatHits := by
  intro c h a
  rcases Hierarchy.read_cases c a h with ⟨i, f1, e⟩ | ⟨j, f1, f2, e⟩ | ⟨m, f1, f2, f3, e⟩ | ⟨f1, f2, f3, e⟩
  case inl =>
    have r1 := Level.resident_of_hit f1
    simp [e, Hierarchy.residentSomewhere, readLatency, r1]
  case inr.inl =>
    have r1 := Level.resident_of_miss f1
    have r2 := Level.resident_of_hit f2
    simp [e, Hierarchy.residentSomewhere, readLatency, r1, r2]
  case inr.inr.inl =>
    have r1 := Level.resident_of_miss f1
    have r2 := Level.resident_of_miss f2
    have r3 := Level.resident_of_hit f3
    simp [e, Hierarchy.residentSomewhere, readLatency, r1, r2, r3]
  case inr.inr.inr =>
    have r1 := Level.resident_of_miss f1
    have r2 := Level.resident_of_miss f2
    have r3 := Level.resident_of_miss f3
    simp [e, Hierarchy.residentSomewhere, readLatency, r1, r2, r3]

/-- A probed level that has a line holds the block it is filled with. -/
theorem Level.resident_install_probe {c : Level} (h : 0 < c.lines.length) (b : Nat) (blk : Block) (t : Counter) :
    ((c.probe b).2.install b blk t).resident b = true :=
  Level.resident_install (by simpa using h) b blk t

/-- Settles O36: each probed level is touched, and then held the block, or is filled with it. -/
theorem readLeavesTheBlockInTheLevelsOfR99 : Obligations.ReadLeavesTheBlockInTheLevelsOfR99 := by
  intro c h a n1 n2 n3
  rcases Hierarchy.read_cases c a h with ⟨i, f1, e⟩ | ⟨j, f1, f2, e⟩ | ⟨m, f1, f2, f3, e⟩ | ⟨f1, f2, f3, e⟩
  case inl =>
    have r1 := Level.resident_of_hit f1
    simp [e, r1]
  case inr.inl =>
    have r1 := Level.resident_of_miss f1
    have r2 := Level.resident_of_hit f2
    simp [e, r1, r2, Level.resident_install_probe n1]
  case inr.inr.inl =>
    have r1 := Level.resident_of_miss f1
    have r2 := Level.resident_of_miss f2
    have r3 := Level.resident_of_hit f3
    simp [e, r1, r2, r3, Level.resident_install_probe n1, Level.resident_install_probe n2]
  case inr.inr.inr =>
    have r1 := Level.resident_of_miss f1
    have r2 := Level.resident_of_miss f2
    simp [e, r1, r2, Level.resident_install_probe n1, Level.resident_install_probe n2, Level.resident_install_probe n3]

/-- Settles O59: on each path the probed levels are touched or filled as `touch_probe` and `install_probe` say. -/
theorem readTakesThePathOfTheLevelThatHits : Obligations.ReadTakesThePathOfTheLevelThatHits := by
  intro c h a
  simp only [Level.probe_fst]
  refine ⟨fun i x f1 hx => ?l1Hit, fun i x f1 f2 hx => ?l2Hit, fun i x f1 f2 f3 hx => ?l3Hit,
    fun f1 f2 f3 => ?fullMiss⟩
  case l1Hit =>
    rw [← Level.touch_probe f1 hx, ← Level.dataAt_eq hx]
    simp [Hierarchy.read, f1, Hierarchy.tick, Hierarchy.countHit, Hierarchy.charge]
  case l2Hit =>
    rw [← Level.touch_probe f2 hx, ← Level.install_probe f1, ← Level.dataAt_eq hx]
    simp [Hierarchy.read, f1, f2, Hierarchy.tick, Hierarchy.countHit, Hierarchy.charge]
  case l3Hit =>
    rw [← Level.touch_probe f3 hx, ← Level.install_probe f1, ← Level.install_probe f2, ← Level.dataAt_eq hx]
    simp [Hierarchy.read, f1, f2, f3, Hierarchy.tick, Hierarchy.countHit, Hierarchy.charge]
  case fullMiss =>
    rw [← Level.install_probe f1, ← Level.install_probe f2, ← Level.install_probe f3]
    simp [Hierarchy.read, f1, f2, f3, Hierarchy.tick, Hierarchy.countMiss, Hierarchy.charge]

/-! ### The write path -/

/-- The three steps of a write on the caches, with the time of the access (R85 to R88). -/
theorem Hierarchy.write_levels (c : Config) (a : Nat) (v : Word) (h : Hierarchy) :
    (h.write c a v).l1 = h.l1.writeAllocate h.store (blockIndex a) (wordOffset a) v h.now ∧
    (h.write c a v).l2 = h.l2.writeNoAllocate (blockIndex a) (wordOffset a) v h.now ∧
    (h.write c a v).l3 = h.l3.writeNoAllocate (blockIndex a) (wordOffset a) v h.now :=
  ⟨rfl, rfl, rfl⟩

/-- Settles O38: each level counts its own probe, and the arbiter charges all of them. -/
theorem writeCountsEveryLevel : Obligations.WriteCountsEveryLevel := by
  intro c h a v
  obtain ⟨e1, e2, e3⟩ := Hierarchy.write_levels c a v h
  refine ⟨Hierarchy.write_stats c a v h, ?_⟩
  simp only [e1, e2, e3, Level.writeAllocate_counts, Level.writeNoAllocate_counts, Level.probe_hits, Level.probe_misses,
    and_self]

/-- Settles O39: the step of each level, by the blocks it holds after it. -/
theorem writeAllocatesInL1Only : Obligations.WriteAllocatesInL1Only :=
  fun _ h a v hlines =>
    ⟨Level.resident_writeAllocate hlines h.store (blockIndex a) (wordOffset a) v h.now,
      fun hb => Level.resident_writeAllocate_of_resident hb h.store (wordOffset a) v h.now,
      Level.resident_writeNoAllocate h.l2 (blockIndex a) (wordOffset a) v h.now,
      Level.resident_writeNoAllocate h.l3 (blockIndex a) (wordOffset a) v h.now⟩

/-- Settles O60: the step of each level, by the outcome of its probe. -/
theorem writeUpdatesEveryLevelThatHoldsTheBlock : Obligations.WriteUpdatesEveryLevelThatHoldsTheBlock := by
  intro c h a v
  obtain ⟨e1, e2, e3⟩ := Hierarchy.write_levels c a v h
  simp only [Level.probe_fst, e1, e2, e3]
  refine ⟨rfl, rfl, fun i x f hx => ?l1Hit, fun f => ?l1Miss, fun i x f hx => ?l2Hit, fun f => ?l2Miss,
    fun i x f hx => ?l3Hit, fun f => ?l3Miss⟩
  case l1Hit => rw [Level.writeAllocate_of_hit f, Level.writeInPlace_probe f hx]
  case l1Miss => rw [Level.writeAllocate_of_miss f, Level.install_probe f]
  case l2Hit | l3Hit => rw [Level.writeNoAllocate_of_hit f, Level.writeInPlace_probe f hx]
  case l2Miss | l3Miss => rw [Level.writeNoAllocate_of_miss f, Level.probe_of_miss f]

/-! ### The statistics reset -/

theorem Hierarchy.resetStatistics_resetStatistics (h : Hierarchy) :
    h.resetStatistics.resetStatistics = h.resetStatistics := rfl

/-- Settles O54: the counters are already 0 when the second reset comes. -/
theorem statsResetZeroesTheCountersOnly : Obligations.StatsResetZeroesTheCountersOnly := by
  intro s
  refine ⟨setMem s.mem.resetStatistics s, rfl, rfl, ?_⟩
  simp only [statsReset, setMem_mem, Hierarchy.resetStatistics_resetStatistics]
  rfl

end Sys2Proof.Machine

/-! The two copies that access memory, and a write access, in terms of the store (20_memory.md rules R89, R98;
42_data_movement.md rules R181, R182). -/

namespace Sys2Proof.Machine

theorem selectReg_of_one {sel : Word} (h : s32 sel = 1) : selectReg sel = some .r1 := by
  simp [selectReg, h]

theorem selectReg_of_two {sel : Word} (h : s32 sel = 2) : selectReg sel = some .r2 := by
  simp [selectReg, h]

/-- A write access sets the word its operand names and no other (R89). -/
theorem StateInv.word_afterWrite {s : State} (h : StateInv s) (d v : Word) (a : Nat) :
    (s.afterWrite d v).word a = if a = addressOf d then v else s.word a := by
  simp [State.word, Memory.read_write h.mem.store.canonical]

@[simp] theorem State.word_afterRead (s : State) (a : Word) (x : Nat) : (s.afterRead a).word x = s.word x := by
  simp [State.word]

/-- Settles O37: the access takes the write path, which always writes the store. -/
theorem writeReachesTheStore : Obligations.WriteReachesTheStore :=
  fun s a v h ha => ⟨s.afterWrite a v, memWrite_of_valid ha v, rfl, h.word_afterWrite a v⟩

theorem exec_copyRegToMem_of_valid {s : State} {sel d : Word} {r : Reg} (hr : selectReg sel = some r)
    (hd : s.validAddress d) : exec (.copyRegToMem sel d) s = .next (advance (s.afterWrite d (getReg r s))) := by
  simp [exec, execCopyRegToMem, withRegister, hr, memWrite_of_valid hd]

/-- The register gets the store's word, which the caches answer under the invariant (R98). -/
theorem exec_copyMemToReg_of_valid {s : State} (h : StateInv s) {sel a : Word} {r : Reg}
    (hr : selectReg sel = some r) (ha : s.validAddress a) :
    exec (.copyMemToReg sel a) s = .next (advance (setReg r (s.word (addressOf a)) (s.afterRead a))) := by
  simp [exec, execCopyMemToReg, withRegister, hr, memRead_of_valid ha, h.read_value ha]

/-- Settles O22: both registers take the same write access. -/
theorem copyRegToMemStoresTheRegister : Obligations.CopyRegToMemStoresTheRegister :=
  fun _ _ d h hd =>
    ⟨fun hsel => ⟨_, exec_copyRegToMem_of_valid (selectReg_of_one hsel) hd, rfl, h.word_afterWrite d _⟩,
      fun hsel => ⟨_, exec_copyRegToMem_of_valid (selectReg_of_two hsel) hd, rfl, h.word_afterWrite d _⟩⟩

/-- Settles O23: both registers take the same read access. -/
theorem copyMemToRegLoadsTheWord : Obligations.CopyMemToRegLoadsTheWord :=
  fun s _ a h ha =>
    ⟨fun hsel => ⟨_, exec_copyMemToReg_of_valid h (selectReg_of_one hsel) ha, rfl, s.word_afterRead a⟩,
      fun hsel => ⟨_, exec_copyMemToReg_of_valid h (selectReg_of_two hsel) ha, rfl, s.word_afterRead a⟩⟩

end Sys2Proof.Machine

/-! What every access keeps, a step keeps: the valid lines and the agreement of the access counters (20_memory.md rules
R71, R79, R84 to R86, R92, R105). Both hold of the model also where a step ends in FAULTED, which the statements leave
out (log 11). -/

namespace Sys2Proof.Machine

/-- An instruction reaches the memory side by read and write accesses only. -/
theorem InstrEffect.mem_keeps {P : Hierarchy → Prop} {i : Instr} {s t : State} (he : InstrEffect s i t)
    (hread : ∀ c a h, P h → P (h.read c a).2) (hwrite : ∀ c a v h, P h → P (h.write c a v)) (h : P s.mem) :
    P t.mem := by
  cases he with
  | halt | jump | stop => exact h
  | loadImmediate => simpa using h
  | loadWord => simpa using hread _ _ _ h
  | storeRegister => exact hwrite _ _ _ _ h
  | stopAtSecondSource => exact hread _ _ _ h
  | warn | stopAtDestination => exact hread _ _ _ (hread _ _ _ h)
  | storeResult => exact hwrite _ _ _ _ (hread _ _ _ (hread _ _ _ h))

/-- The two ends of a step that run no instruction make no access. -/
theorem step_mem_keeps {P : Hierarchy → Prop} {s t : State} (hstep : step s = .next t)
    (hread : ∀ c a h, P h → P (h.read c a).2) (hwrite : ∀ c a v h, P h → P (h.write c a v)) (h : P s.mem) :
    P t.mem := by
  obtain ⟨-, ⟨-, rfl⟩ | ⟨w, i, -, -, -, hexec⟩ | ⟨w, op, -, -, -, rfl⟩⟩ := step_cases hstep
  · exact h
  · exact (exec_effect hexec).mem_keeps hread hwrite h
  · exact h

/-- Settles O47: each access moves the three counters together. -/
theorem stepKeepsAccessCountersInAgreement : Obligations.StepKeepsAccessCountersInAgreement :=
  fun _ _ hagree hstep _ =>
    step_mem_keeps hstep (fun c a _ hi => hi.read c a) (fun c a v _ hi => hi.write c a v) hagree

/-! ### Valid lines -/

theorem Level.validLinesStay.refl (c : Level) : c.validLinesStay c := fun _ x hx vx => ⟨x, hx, vx⟩

theorem Level.validLinesStay.probe {c d : Level} (h : c.validLinesStay d) (b : Nat) :
    c.validLinesStay (d.probe b).2 := by
  simpa [Level.validLinesStay] using h

/-- A change of one line that makes no valid line invalid. -/
theorem Level.validLinesStay.modifyLine {c d : Level} (h : c.validLinesStay d) (i : Nat) {f : Line → Line}
    (hf : ∀ x : Line, x.valid = true → (f x).valid = true) : c.validLinesStay (d.modifyLine i f) := by
  intro j x hx vx
  obtain ⟨y, hy, vy⟩ := h j x hx vx
  by_cases hij : i = j
  · exact ⟨f y, by simp [Level.modifyLine_get, hij, hy], hf y vy⟩
  · exact ⟨y, by simp [Level.modifyLine_get, hij, hy], vy⟩

theorem Level.validLinesStay.touch {c d : Level} (h : c.validLinesStay d) (i : Nat) (t : Counter) :
    c.validLinesStay (d.touch i t) := h.modifyLine i fun _ vx => vx

/-- The line that is filled becomes valid, whatever it was (R75, R92). -/
theorem Level.validLinesStay.install {c d : Level} (h : c.validLinesStay d) (b : Nat) (blk : Block) (t : Counter) :
    c.validLinesStay (d.install b blk t) := h.modifyLine d.victim fun _ _ => rfl

theorem Level.validLinesStay.writeInPlace {c d : Level} (h : c.validLinesStay d) (i k : Nat) (v : Word)
    (t : Counter) : c.validLinesStay (d.writeInPlace i k v t) := h.modifyLine i fun _ vx => vx

theorem Level.validLinesStay.writeAllocate {c d : Level} (h : c.validLinesStay d) (m : Memory) (b k : Nat) (v : Word)
    (t : Counter) : c.validLinesStay (d.writeAllocate m b k v t) := by
  cases hf : d.find b with
  | some i => rw [Level.writeAllocate_of_hit hf]; exact (h.probe b).writeInPlace i k v t
  | none => rw [Level.writeAllocate_of_miss hf]; exact (h.probe b).install b _ t

theorem Level.validLinesStay.writeNoAllocate {c d : Level} (h : c.validLinesStay d) (b k : Nat) (v : Word)
    (t : Counter) : c.validLinesStay (d.writeNoAllocate b k v t) := by
  cases hf : d.find b with
  | some i => rw [Level.writeNoAllocate_of_hit hf]; exact (h.probe b).writeInPlace i k v t
  | none => rw [Level.writeNoAllocate_of_miss hf]; exact h.probe b

/-- Every valid line of `h`, by its level and index, is a valid line of `g`. -/
structure Hierarchy.ValidLinesStay (h g : Hierarchy) : Prop where
  l1 : h.l1.validLinesStay g.l1
  l2 : h.l2.validLinesStay g.l2
  l3 : h.l3.validLinesStay g.l3

theorem Hierarchy.ValidLinesStay.refl (h : Hierarchy) : h.ValidLinesStay h where
  l1 := .refl h.l1
  l2 := .refl h.l2
  l3 := .refl h.l3

/-- A read leaves, touches or fills the line it changes in each level (R80 to R83, R92). -/
theorem Hierarchy.ValidLinesStay.read {h g : Hierarchy} (hs : h.ValidLinesStay g) (c : Config) (a : Nat) :
    h.ValidLinesStay (g.read c a).2 := by
  obtain ⟨s1, s2, s3⟩ := hs
  rcases Hierarchy.read_cases c a g with ⟨i, -, e⟩ | ⟨j, -, -, e⟩ | ⟨m, -, -, -, e⟩ | ⟨-, -, -, e⟩ <;> rw [e]
  · exact ⟨(s1.probe _).touch _ _, s2, s3⟩
  · exact ⟨(s1.probe _).install _ _ _, (s2.probe _).touch _ _, s3⟩
  · exact ⟨(s1.probe _).install _ _ _, (s2.probe _).install _ _ _, (s3.probe _).touch _ _⟩
  · exact ⟨(s1.probe _).install _ _ _, (s2.probe _).install _ _ _, (s3.probe _).install _ _ _⟩

theorem Hierarchy.ValidLinesStay.write {h g : Hierarchy} (hs : h.ValidLinesStay g) (c : Config) (a : Nat) (v : Word) :
    h.ValidLinesStay (g.write c a v) where
  l1 := hs.l1.writeAllocate _ _ _ _ _
  l2 := hs.l2.writeNoAllocate _ _ _ _
  l3 := hs.l3.writeNoAllocate _ _ _ _

/-- Settles O46: every access keeps the lines valid that were valid before the step. -/
theorem stepKeepsValidLinesValid : Obligations.StepKeepsValidLinesValid := by
  intro s t hstep _
  obtain ⟨h1, h2, h3⟩ : s.mem.ValidLinesStay t.mem :=
    step_mem_keeps hstep (fun c a _ hs => hs.read c a) (fun c a v _ hs => hs.write c a v) (.refl s.mem)
  exact ⟨h1, h2, h3⟩

end Sys2Proof.Machine

/-! The host's requests keep the invariant of the block (20_memory.md rules R93, R96, R97; 60_exceptions.md rule R217;
70_reset_and_hazards.md rules R230, R231). -/

namespace Sys2Proof.Machine

/-! ### What an accepted request does -/

/-- A `STORE_INIT` that stands for a store stands for a canonical one within the store's range (R37). -/
theorem StoreInit.store_inv {c : Config} {init : StoreInit} {m : Memory} (h : init.store c = .ok m) : StoreInv c m := by
  cases init with
  | zero => cases h; exact StoreInv.nil c
  | words ws =>
    simp only [StoreInit.store] at h
    split_ifs at h with hlen hfit
    cases h
    exact StoreInv.ofWords (by simpa using hlen)

theorem powerOnReset_eq_next {c : Config} {init : StoreInit} {s t : State} (h : powerOnReset c init s = .next t) :
    c.wellFormed = true ∧ ∃ m, init.store c = .ok m ∧ t = State.poweredOn c m := by
  unfold powerOnReset at h
  split_ifs at h with hc
  cases hm : init.store c with
  | ok m => simp only [hm, Host.Outcome.next.injEq] at h; exact ⟨hc, m, rfl, h.symm⟩
  | error r => simp [hm] at h

theorem runStart_eq_next {program : List InstrWord} {n : Nat} {s t : State} (h : runStart program n s = .next t) :
    s.fsm.acceptsRunStart = true ∧ progLenFits n = true ∧ n ≤ program.length ∧ t = startRun program n s := by
  unfold runStart at h
  split_ifs at h with hfsm hn hlen
  cases h
  exact ⟨by simpa using hfsm, by simpa using hn, by omega, rfl⟩

/-- A RUN_START with tuples is a RUN_START with their words (R121). -/
theorem runStartTuples_eq_next {program : List SourceTuple} {n : Nat} {s t : State}
    (h : runStartTuples program n s = .next t) : ∃ ws, runStart ws n s = .next t := by
  unfold runStartTuples at h
  cases hw : programWords program with
  | some ws => exact ⟨ws, by simpa [hw] using h⟩
  | none => simp [hw] at h

/-! ### What each keeps -/

/-- A FAULTED block accepts no RUN_START, so the new run has no fault on record and its lines are covered (R231). -/
theorem BlockInv.startRun {s : State} (h : BlockInv s) (hfsm : s.fsm.acceptsRunStart = true)
    {program : List InstrWord} {n : Nat} (hn : progLenFits n = true) (hlen : n ≤ program.length) :
    BlockInv (startRun program n s) :=
  have hf : s.fsm ≠ .faulted := fun e => by simp [e, FsmState.acceptsRunStart] at hfsm
  { config := h.config
    progLen := hn
    program := hlen
    store := h.store
    faultRecord := ⟨fun _ => h.faultRecord.1 hf, fun e => nomatch e⟩
    divz := fun _ => rfl
    lines := fun _ => h.lines hf }

theorem BlockInv.resetStatistics {s : State} (h : BlockInv s) : BlockInv (setMem s.mem.resetStatistics s) :=
  { h with lines := fun hf => (h.lines hf).resetStatistics }

/-- After the reset the three counters of every access are 0 (R93). -/
theorem AccessCountersAgree.resetStatistics (h : Hierarchy) : AccessCountersAgree h.resetStatistics :=
  ⟨rfl, BitVec.add_zero _⟩

/-- What an accepted RUN_START keeps, with words or with tuples. -/
theorem BlockInv.runStart {s t : State} (hb : BlockInv s) {program : List InstrWord} {n : Nat}
    (h : runStart program n s = .next t) :
    BlockInv t ∧ (AccessCountersAgree s.mem → AccessCountersAgree t.mem) := by
  obtain ⟨hfsm, hn, hlen, rfl⟩ := runStart_eq_next h
  exact ⟨hb.startRun hfsm hn hlen, id⟩

/-- Settles O55: request by request, from what an accepted one does. -/
theorem hostRequestsKeepTheBlockInvariant : Obligations.HostRequestsKeepTheBlockInvariant := by
  intro q s t hb h
  cases q with
  | powerOnReset c init =>
    obtain ⟨hc, m, hm, rfl⟩ := powerOnReset_eq_next (s := s) h
    exact ⟨BlockInv.poweredOn hc (StoreInit.store_inv hm), fun _ => AccessCountersAgree.poweredOn c m⟩
  | runStart program n => exact hb.runStart h
  | runStartTuples program n =>
    obtain ⟨ws, hws⟩ := runStartTuples_eq_next h
    exact hb.runStart hws
  | statsReset =>
    cases h
    exact ⟨hb.resetStatistics, fun _ => AccessCountersAgree.resetStatistics s.mem⟩

end Sys2Proof.Machine

/-! The decoder and the encoder as inverses, and the word of a source tuple (30_encoding.md rules R121 to R126). The
decoder is said once, for all thirteen opcodes, through the instruction of a given kind that a word's operand fields
spell. -/

namespace Sys2Proof

/-! ### Words and their fields -/

/-- Words with the same four fields are the same word (R121). -/
theorem instrWord_ext {v w : InstrWord} (hop : opcodeField v = opcodeField w) (h1 : op1Field v = op1Field w)
    (h2 : op2Field v = op2Field w) (h3 : op3Field v = op3Field w) : v = w := by
  rw [← joinFields_fields v, hop, h1, h2, h3, joinFields_fields]

@[simp] theorem opcodeField_and (v w : InstrWord) : opcodeField (v &&& w) = opcodeField v &&& opcodeField w :=
  BitVec.extractLsb'_and

@[simp] theorem op1Field_and (v w : InstrWord) : op1Field (v &&& w) = op1Field v &&& op1Field w :=
  BitVec.extractLsb'_and

@[simp] theorem op2Field_and (v w : InstrWord) : op2Field (v &&& w) = op2Field v &&& op2Field w :=
  BitVec.extractLsb'_and

@[simp] theorem op3Field_and (v w : InstrWord) : op3Field (v &&& w) = op3Field v &&& op3Field w :=
  BitVec.extractLsb'_and

/-- The family `EncodedFields` as one statement (R121, R122, R124). -/
theorem encodedFields : ∀ i : Instr, Laws.EncodedFields.Statement i
  | .halt => Laws.EncodedFields.halt
  | .add a b d => Laws.EncodedFields.add a b d
  | .sub a b d => Laws.EncodedFields.sub a b d
  | .mul a b d => Laws.EncodedFields.mul a b d
  | .div a b d => Laws.EncodedFields.div a b d
  | .copyRegToMem r d => Laws.EncodedFields.copyRegToMem r d
  | .copyMemToReg r a => Laws.EncodedFields.copyMemToReg r a
  | .copyImmediateToReg r n => Laws.EncodedFields.copyImmediateToReg r n
  | .jump p => Laws.EncodedFields.jump p
  | .jumpIfZero p => Laws.EncodedFields.jumpIfZero p
  | .jumpIfNonzero p => Laws.EncodedFields.jumpIfNonzero p
  | .jumpIfGt p => Laws.EncodedFields.jumpIfGt p
  | .jumpIfLt p => Laws.EncodedFields.jumpIfLt p

/-! ### The decoder by its opcode field -/

/-- The instruction of the same kind whose operands are the used operand fields of a word (R124, R126). -/
def Instr.withOperandsOf (w : InstrWord) : Instr → Instr
  | .halt => .halt
  | .add _ _ _ => .add (op1Field w) (op2Field w) (op3Field w)
  | .sub _ _ _ => .sub (op1Field w) (op2Field w) (op3Field w)
  | .mul _ _ _ => .mul (op1Field w) (op2Field w) (op3Field w)
  | .div _ _ _ => .div (op1Field w) (op2Field w) (op3Field w)
  | .copyRegToMem _ _ => .copyRegToMem (op1Field w) (op2Field w)
  | .copyMemToReg _ _ => .copyMemToReg (op1Field w) (op2Field w)
  | .copyImmediateToReg _ _ => .copyImmediateToReg (op1Field w) (op2Field w)
  | .jump _ => .jump (op1Field w)
  | .jumpIfZero _ => .jumpIfZero (op1Field w)
  | .jumpIfNonzero _ => .jumpIfNonzero (op1Field w)
  | .jumpIfGt _ => .jumpIfGt (op1Field w)
  | .jumpIfLt _ => .jumpIfLt (op1Field w)

@[simp] theorem opcodeOf_withOperandsOf (w : InstrWord) (i : Instr) : opcodeOf (i.withOperandsOf w) = opcodeOf i := by
  cases i <;> rfl

@[simp] theorem usedMask_withOperandsOf (w : InstrWord) (i : Instr) : usedMask (i.withOperandsOf w) = usedMask i := by
  cases i <;> rfl

/-- A word with an instruction's opcode decodes to that kind of instruction, with the operands in the word (R122). -/
theorem decode_of_opcode {w : InstrWord} {i : Instr} (h : opcodeField w = opcodeOf i) :
    decode w = .ok (i.withOperandsOf w) := by
  unfold decode
  rw [h]
  cases i <;> rfl

/-- The numbers below 13 are all opcodes (R122). -/
theorem exists_opcodeOf_eq : ∀ n : Fin 13, ∃ i, opcodeOf i = BitVec.ofNat 32 n
  | 0 => ⟨.halt, rfl⟩
  | 1 => ⟨.add 0 0 0, rfl⟩
  | 2 => ⟨.sub 0 0 0, rfl⟩
  | 3 => ⟨.mul 0 0 0, rfl⟩
  | 4 => ⟨.div 0 0 0, rfl⟩
  | 5 => ⟨.copyRegToMem 0 0, rfl⟩
  | 6 => ⟨.copyMemToReg 0 0, rfl⟩
  | 7 => ⟨.copyImmediateToReg 0 0, rfl⟩
  | 8 => ⟨.jump 0, rfl⟩
  | 9 => ⟨.jumpIfZero 0, rfl⟩
  | 10 => ⟨.jumpIfNonzero 0, rfl⟩
  | 11 => ⟨.jumpIfGt 0, rfl⟩
  | 12 => ⟨.jumpIfLt 0, rfl⟩

theorem decode_of_opcode_lt {w : InstrWord} (h : u32 (opcodeField w) < 13) :
    ∃ i, opcodeField w = opcodeOf i ∧ decode w = .ok (i.withOperandsOf w) := by
  obtain ⟨i, hi⟩ := exists_opcodeOf_eq ⟨_, h⟩
  have hop : opcodeField w = opcodeOf i := by rw [hi, BitVec.ofNat_toNat, BitVec.setWidth_eq]
  exact ⟨i, hop, decode_of_opcode hop⟩

theorem decode_of_opcode_ge {w : InstrWord} (h : 13 ≤ u32 (opcodeField w)) :
    decode w = .error (.illegalOpcode (opcodeField w)) := by
  unfold decode
  split
  case h_14 => rfl
  all_goals omega

/-- A decoded instruction is of the kind the opcode names and has the word's operands (R122, R124). -/
theorem decode_eq_ok {w : InstrWord} {i : Instr} (h : decode w = .ok i) :
    ∃ j, opcodeField w = opcodeOf j ∧ i = j.withOperandsOf w := by
  rcases lt_or_ge (u32 (opcodeField w)) 13 with hlt | hge
  · obtain ⟨j, hop, hj⟩ := decode_of_opcode_lt hlt
    exact ⟨j, hop, Except.ok.inj (h.symm.trans hj)⟩
  · exact nomatch h.symm.trans (decode_of_opcode_ge hge)

/-! ### Decode of encode -/

/-- The operands in an instruction's own word are its operands (R124). -/
theorem withOperandsOf_encode (i : Instr) : i.withOperandsOf (encode i) = i := by
  obtain ⟨-, h1, h2, h3, -⟩ := encodedFields i
  cases i <;> simp only [Instr.withOperandsOf, h1, h2, h3, operandsOf]

theorem decode_encode (i : Instr) : decode (encode i) = .ok i := by
  rw [decode_of_opcode (encodedFields i).1, withOperandsOf_encode]

/-- Settles O1: the opcode of an instruction's word names its kind, and the operand fields are its operands. -/
theorem decodeOfEncodeIsTheInstruction : Obligations.DecodeOfEncodeIsTheInstruction :=
  fun i _ => decode_encode i

/-! ### Encode of decode -/

/-- The masks of the three operand fields in `usedMask`: all ones for a used field, zero for an unused one (R124). -/
def operandMasks : Instr → Word × Word × Word
  | .halt => (0, 0, 0)
  | .add _ _ _ | .sub _ _ _ | .mul _ _ _ | .div _ _ _ => (BitVec.allOnes 32, BitVec.allOnes 32, BitVec.allOnes 32)
  | .copyRegToMem _ _ | .copyMemToReg _ _ | .copyImmediateToReg _ _ => (BitVec.allOnes 32, BitVec.allOnes 32, 0)
  | .jump _ | .jumpIfZero _ | .jumpIfNonzero _ | .jumpIfGt _ | .jumpIfLt _ => (BitVec.allOnes 32, 0, 0)

/-- Every instruction uses the whole opcode field (R122, R124). -/
theorem usedMask_eq_joinFields (i : Instr) :
    usedMask i = joinFields (BitVec.allOnes 32) (operandMasks i).1 (operandMasks i).2.1 (operandMasks i).2.2 := by
  have mask1 : (0xFFFFFFFF : InstrWord) = joinFields (BitVec.allOnes 32) 0 0 0 := by decide
  have mask2 : (0xFFFFFFFFFFFFFFFF : InstrWord) = joinFields (BitVec.allOnes 32) (BitVec.allOnes 32) 0 0 := by decide
  have mask3 : (0xFFFFFFFFFFFFFFFFFFFFFFFF : InstrWord) =
      joinFields (BitVec.allOnes 32) (BitVec.allOnes 32) (BitVec.allOnes 32) 0 := by decide
  have mask4 : (0xFFFFFFFFFFFFFFFFFFFFFFFFFFFFFFFF : InstrWord) =
      joinFields (BitVec.allOnes 32) (BitVec.allOnes 32) (BitVec.allOnes 32) (BitVec.allOnes 32) := by decide
  cases i with
  | halt => exact mask1
  | add | sub | mul | div => exact mask4
  | copyRegToMem | copyMemToReg | copyImmediateToReg => exact mask3
  | jump | jumpIfZero | jumpIfNonzero | jumpIfGt | jumpIfLt => exact mask2

/-- The operands read from a word, as the encoder writes them: the used fields, and zero for the others (R125). -/
theorem operandsOf_withOperandsOf (w : InstrWord) (i : Instr) :
    operandsOf (i.withOperandsOf w) =
      (op1Field w &&& (operandMasks i).1, op2Field w &&& (operandMasks i).2.1,
        op3Field w &&& (operandMasks i).2.2) := by
  cases i <;> simp only [operandsOf, Instr.withOperandsOf, operandMasks, BitVec.and_allOnes, BitVec.and_zero,
    BitVec.ofNat_eq_ofNat]

theorem encode_withOperandsOf {w : InstrWord} {i : Instr} (h : opcodeField w = opcodeOf i) :
    encode (i.withOperandsOf w) = w &&& usedMask i := by
  obtain ⟨hop, h1, h2, h3, -⟩ := encodedFields (i.withOperandsOf w)
  rw [operandsOf_withOperandsOf] at h1 h2 h3
  rw [usedMask_eq_joinFields]
  apply instrWord_ext
  case hop => rw [hop, opcodeOf_withOperandsOf, opcodeField_and, opcodeField_joinFields, BitVec.and_allOnes, h]
  case h1 => rw [h1, op1Field_and, op1Field_joinFields]
  case h2 => rw [h2, op2Field_and, op2Field_joinFields]
  case h3 => rw [h3, op3Field_and, op3Field_joinFields]

/-- Settles O2: the decoder takes the word's used fields, and the encoder writes them back over zeros. -/
theorem encodeOfDecodeKeepsTheUsedFields : Obligations.EncodeOfDecodeKeepsTheUsedFields := by
  intro w i h
  obtain ⟨j, hop, rfl⟩ := decode_eq_ok h
  rw [encode_withOperandsOf hop, usedMask_withOperandsOf]

/-! ### The boundary of the opcodes -/

/-- Settles O3: each side of the boundary has its own answer, and no word gets both. -/
theorem decodeRejectsExactlyOpcodesFromThirteen : Obligations.DecodeRejectsExactlyOpcodesFromThirteen := by
  intro w
  rcases lt_or_ge (u32 (opcodeField w)) 13 with hlt | hge
  · obtain ⟨i, -, hi⟩ := decode_of_opcode_lt hlt
    have accepted : decode w ≠ .error (.illegalOpcode (opcodeField w)) := by simp [hi]
    exact ⟨iff_of_false accepted (not_le.mpr hlt), iff_of_true ⟨_, hi⟩ hlt⟩
  · have rejected : ¬ ∃ i, decode w = .ok i := by simp [decode_of_opcode_ge hge]
    exact ⟨iff_of_true (decode_of_opcode_ge hge) hge, iff_of_false rejected (not_lt.mpr hge)⟩

/-! ### Written-out words -/

theorem decode_of_encode_eq {i : Instr} {w : InstrWord} (h : encode i = w) : decode w = .ok i := h ▸ decode_encode i

/-- Settles O4: each of the five words is the encoder's word of its instruction. -/
theorem writtenWordsDecode : Obligations.WrittenWordsDecode :=
  ⟨decode_of_encode_eq (by decide), decode_of_encode_eq (by decide), decode_of_encode_eq (by decide),
    decode_of_encode_eq (by decide), decode_of_encode_eq (by decide)⟩

/-! ### Source tuples -/

theorem SourceTuple.wellFormed_iff {t : SourceTuple} :
    t.wellFormed = true ↔ fitsWord t.opcode = true ∧ fitsWord t.operand1 = true ∧ fitsWord t.operand2 = true ∧
      fitsWord t.operand3 = true := by
  simp only [SourceTuple.wellFormed, Bool.and_eq_true, and_assoc]

theorem SourceTuple.word?_of_wellFormed {t : SourceTuple} (h : t.wellFormed = true) :
    t.word? = some (joinFields (w32 t.opcode) (w32 t.operand1) (w32 t.operand2) (w32 t.operand3)) :=
  if_pos h

theorem SourceTuple.word?_of_illFormed {t : SourceTuple} (h : t.wellFormed = false) : t.word? = none := by
  simp [SourceTuple.word?, h]

/-- Settles O5: each field of the joined word is the pattern of its integer, which fits and so reads back. -/
theorem tupleWordHoldsItsIntegers : Obligations.TupleWordHoldsItsIntegers := by
  refine fun t => ⟨fun h => ?_, SourceTuple.word?_of_illFormed⟩
  obtain ⟨hop, h1, h2, h3⟩ := SourceTuple.wellFormed_iff.mp h
  refine ⟨_, SourceTuple.word?_of_wellFormed h, ?opcode, ?operand1, ?operand2, ?operand3⟩
  case opcode => exact (congrArg s32 (opcodeField_joinFields ..)).trans (Machine.s32_w32 hop)
  case operand1 => exact (congrArg s32 (op1Field_joinFields ..)).trans (Machine.s32_w32 h1)
  case operand2 => exact (congrArg s32 (op2Field_joinFields ..)).trans (Machine.s32_w32 h2)
  case operand3 => exact (congrArg s32 (op3Field_joinFields ..)).trans (Machine.s32_w32 h3)

end Sys2Proof

/-! The step in RUN, phase by phase (40_dispatch.md rules R140 to R146), and the instructions that leave the store or
the whole memory side alone (20_memory.md rule R60). -/

namespace Sys2Proof.Machine

/-! ### The phases of a step -/

theorem step_of_run {s : State} (hrun : s.fsm = .run) : step s = stepInRun s := by
  unfold step dispatchStep
  rw [hrun]

/-- The bound check passes exactly for a PC in `[0, PROG_LEN)` (R141). -/
theorem pcInBounds_iff {s : State} : pcInBounds s = true ↔ 0 ≤ s32 s.pc ∧ s32 s.pc < s.progLen := by
  simp [pcInBounds]

theorem stepInRun_of_outOfBounds {s : State} (hb : pcInBounds s = false) : stepInRun s = .next (enterBound s) := by
  simp [stepInRun, hb]

theorem stepInRun_of_fetch {s : State} {w : InstrWord} (hb : pcInBounds s = true) (hw : fetch s = some w) :
    stepInRun s = runWord w s := by
  simp [stepInRun, hb, hw]

theorem runWord_of_decode {w : InstrWord} {i : Instr} (hd : decode w = .ok i) (s : State) :
    runWord w s = exec i (setIr (opcodeField w) s) := by
  simp [runWord, hd]

/-- Settles O6: the bound check passes, and the fetched word is the entry that decodes. -/
theorem stepRunsTheDecodedInstruction : Obligations.StepRunsTheDecodedInstruction := by
  intro s w i hrun hlow hhigh hw hd _
  have hb : pcInBounds s = true := pcInBounds_iff.mpr ⟨hlow, hhigh⟩
  calc step s = stepInRun s := step_of_run hrun
    _ = runWord w s := stepInRun_of_fetch hb hw
    _ = exec i (setIr (opcodeField w) s) := runWord_of_decode hd s

/-- Settles O7: the bound check fails on both sides of the range. -/
theorem stepEndsInBoundOutsideTheProgram : Obligations.StepEndsInBoundOutsideTheProgram := by
  intro s hrun hout
  have hb : pcInBounds s = false := by
    rw [Bool.eq_false_iff, ne_eq, pcInBounds_iff]
    omega
  exact (step_of_run hrun).trans (stepInRun_of_outOfBounds hb)

/-! ### Every running block steps -/

/-- Each of the thirteen instructions answers a next state, its hard stops included (R144, R205). -/
theorem exec_eq_next (i : Instr) (s : State) : ∃ t, exec i s = .next t := by
  cases i with
  | halt => exact ⟨_, rfl⟩
  | add | sub | mul | div => exact ⟨_, rfl⟩
  | copyRegToMem | copyMemToReg | copyImmediateToReg => exact ⟨_, rfl⟩
  | jump | jumpIfZero | jumpIfNonzero | jumpIfGt | jumpIfLt => exact ⟨_, rfl⟩

/-- A fetched word runs or stops the block as an illegal opcode (R143, R144). -/
theorem runWord_eq_next (w : InstrWord) (s : State) : ∃ t, runWord w s = .next t := by
  rcases runWord_cases w s with ⟨i, -, e⟩ | ⟨op, -, e⟩
  · exact e ▸ exec_eq_next i _
  · exact ⟨_, e⟩

/-- Settles O10: inside the bound the invariant gives the fetch a word, as the program is as long as its bound says. -/
theorem runningBlockAlwaysSteps : Obligations.RunningBlockAlwaysSteps := by
  intro s hs hrun
  rw [step_of_run hrun]
  cases hb : pcInBounds s with
  | false => exact ⟨_, stepInRun_of_outOfBounds hb⟩
  | true =>
    obtain ⟨w, hw⟩ := fetch_isSome hs.program hb
    rw [stepInRun_of_fetch hb hw]
    exact runWord_eq_next w s

/-! ### HALT -/

/-- HALT uses no operand field, so its opcode alone spells it (R122, R124). -/
theorem decode_of_opcode_zero {w : InstrWord} (h : u32 (opcodeField w) = 0) : decode w = .ok .halt :=
  decode_of_opcode (i := .halt) (BitVec.eq_of_toNat_eq h)

/-- Settles O11: HALT's one end is the state that the statement writes out, and DONE is STATUS bit 4 of HALTED. -/
theorem haltStopsTheBlock : Obligations.HaltStopsTheBlock := by
  refine ⟨fun _ => decode_of_opcode_zero, fun s => ⟨emit .done (setFsm .halted s), rfl, rfl, ?done⟩⟩
  case done => exact State.status_getLsbD _ 4

/-! ### Instructions that do not write the store -/

/-- Settles O42: an end that writes the store is one of an arithmetic instruction or of COPY_REG_TO_MEM, and of the
others only COPY_MEM_TO_REG's load makes an access, a read (R60). -/
theorem onlyStoringInstructionsChangeTheStore : Obligations.OnlyStoringInstructionsChangeTheStore := by
  intro i s t h harith hstore
  cases exec_effect h
  case halt | jump | loadImmediate | stop => simp
  case loadWord sel a _ _ _ _ => exact ⟨by simp, fun hload => absurd rfl (hload sel a)⟩
  case storeRegister sel d _ _ => exact absurd rfl (hstore sel d)
  case stopAtSecondSource op x y d _ => exact absurd rfl (harith op x y d)
  case warn op x y d _ _ => exact absurd rfl (harith op x y d)
  case storeResult op x y d _ _ _ _ => exact absurd rfl (harith op x y d)
  case stopAtDestination op x y d _ _ _ => exact absurd rfl (harith op x y d)

end Sys2Proof.Machine

/-! The alu's four laws (41_arithmetic.md rules R161 to R164). Narrowing an exact integer result agrees with the
arithmetic of words, so each law is tied once to the operation of `BitVec` that it describes. -/

namespace Sys2Proof.Machine

/-! ### ADD, SUB and MUL -/

theorem alu_add (a b : Word) : alu .add a b = ⟨a + b, false⟩ := by
  have hword : w32 (s32 a + s32 b) = a + b := by simp [w32, s32, BitVec.ofInt_add]
  simp [alu, hword]

theorem alu_sub (a b : Word) : alu .sub a b = ⟨a - b, false⟩ := by
  have hword : w32 (s32 a - s32 b) = a - b :=
    BitVec.eq_of_toInt_eq (by rw [BitVec.toInt_ofInt, BitVec.toInt_sub])
  simp [alu, hword]

theorem alu_mul (a b : Word) : alu .mul a b = ⟨a * b, false⟩ := by
  have hword : w32 (s32 a * s32 b) = a * b := by simp [w32, s32, BitVec.ofInt_mul]
  simp [alu, hword]

/-- Settles O12: the exact results are the alu's own equations, and narrowed they are those of the word operations. -/
theorem aluAddSubMulWrap : Obligations.AluAddSubMulWrap := fun a b =>
  ⟨rfl, congrArg AluResult.result (alu_add a b), rfl, congrArg AluResult.result (alu_sub a b), rfl,
    congrArg AluResult.result (alu_mul a b)⟩

/-! ### DIV -/

theorem s32_eq_zero_iff {b : Word} : s32 b = 0 ↔ b = 0 := BitVec.toInt_inj (y := 0)

/-- The narrowed quotient is the signed quotient of words, also where the exact one is 2^31. -/
theorem w32_tdiv (a b : Word) : w32 ((s32 a).tdiv (s32 b)) = a.sdiv b :=
  BitVec.eq_of_toInt_eq (by rw [BitVec.toInt_ofInt, BitVec.toInt_sdiv])

theorem alu_div_zero (a : Word) : alu .div a 0 = ⟨0, true⟩ := by simp [alu, aluDiv]

/-- One equation for every divisor but zero: the clause of R164 for `-2^31 / -1` is the one quotient that wraps. -/
theorem alu_div_of_ne_zero (a : Word) {b : Word} (hb : b ≠ 0) : alu .div a b = ⟨a.sdiv b, false⟩ := by
  have hb' : s32 b ≠ 0 := mt s32_eq_zero_iff.mp hb
  by_cases hwrap : s32 a = -2 ^ 31 ∧ s32 b = -1
  · obtain ⟨ha, hb1⟩ := hwrap
    obtain rfl : a = 0x80000000 := BitVec.eq_of_toInt_eq ha
    obtain rfl : b = 0xFFFFFFFF := BitVec.eq_of_toInt_eq hb1
    decide
  · rw [← w32_tdiv]
    simp only [alu, aluDiv, if_neg hb', if_neg hwrap]

/-- Only a zero divisor sets `divz` (R161 to R164). -/
theorem alu_divz_eq_false {op : AluOp} (a : Word) {b : Word} (h : op = .div → b ≠ 0) : (alu op a b).divz = false := by
  cases op with
  | add | sub | mul => rfl
  | div => rw [alu_div_of_ne_zero a (h rfl)]

/-- Outside `-2^31 / -1` the quotient fits a word, so narrowing it changes nothing (R164). -/
theorem s32_sdiv {a b : Word} (hwrap : ¬ (s32 a = -2 ^ 31 ∧ s32 b = -1)) :
    s32 (a.sdiv b) = (s32 a).tdiv (s32 b) := by
  refine BitVec.toInt_sdiv_of_ne_or_ne a b ?_
  by_contra! hmin
  obtain ⟨rfl, rfl⟩ := hmin
  exact hwrap ⟨by decide, by decide⟩

theorem tdiv_nonneg_of_mul_nonneg {m n : Int} (h : 0 ≤ m * n) : 0 ≤ m.tdiv n := by
  rcases mul_nonneg_iff.mp h with ⟨hm, hn⟩ | ⟨hm, hn⟩
  · exact Int.tdiv_nonneg hm hn
  · exact Int.tdiv_nonneg_of_nonpos_of_nonpos hm hn

theorem tdiv_nonpos_of_mul_nonpos {m n : Int} (h : m * n ≤ 0) : m.tdiv n ≤ 0 := by
  have hneg : 0 ≤ m.tdiv (-n) := tdiv_nonneg_of_mul_nonneg (by simpa using h)
  simpa using hneg

/-- Settles O13: the last case is the exact quotient rounded toward zero, read as an integer. -/
theorem aluDivRoundsTowardZero : Obligations.AluDivRoundsTowardZero := by
  intro a b
  refine ⟨fun hb => ?zero, fun ha hb => ?wrap, fun hb hwrap => ?rounded⟩
  case zero => rw [s32_eq_zero_iff.mp hb, alu_div_zero]
  case wrap => simp [alu, aluDiv, ha, hb]
  case rounded =>
    rw [alu_div_of_ne_zero a (mt s32_eq_zero_iff.mpr hb)]
    dsimp only
    rw [s32_sdiv hwrap]
    exact ⟨rfl, Int.natAbs_tdiv .., tdiv_nonneg_of_mul_nonneg, tdiv_nonpos_of_mul_nonpos⟩

end Sys2Proof.Machine

/-! What ADD, SUB, MUL and DIV do with two good sources: store the alu's result or stop at the destination; and where
they stop before (41_arithmetic.md rules R165 to R169; 60_exceptions.md rules R201, R205 to R207). -/

namespace Sys2Proof.Machine

/-- The four arithmetic instructions run the one sequence of R165. -/
theorem exec_arithInstr (op : AluOp) (x y d : Word) (s : State) :
    exec (arithInstr op x y d) s = .next (arith op x y d s) := by
  cases op <;> rfl

/-! ### The end that stores -/

theorem finishArith_of_valid {s : State} {d : Word} (hd : s.validAddress d) {r : AluResult} (hr : r.divz = false) :
    finishArith d r s = advance ((setAc r.result s).afterWrite d r.result) := by
  rcases finishArith_cases d r s with ⟨hz, -⟩ | ⟨-, -, e⟩ | ⟨-, hd', -⟩
  · simp [hr] at hz
  · exact e
  · exact absurd hd hd'

theorem finishArith_of_invalid {s : State} {d : Word} (hd : ¬ s.validAddress d) {r : AluResult}
    (hr : r.divz = false) : finishArith d r s = raise .outOfBounds d (setAc r.result s) := by
  rcases finishArith_cases d r s with ⟨hz, -⟩ | ⟨-, hd', -⟩ | ⟨-, -, e⟩
  · simp [hr] at hz
  · exact absurd hd' hd
  · exact e

@[simp] theorem State.word_setAc (v : Word) (s : State) (a : Nat) : (setAc v s).word a = s.word a := rfl
@[simp] theorem State.word_advance (s : State) (a : Nat) : (advance s).word a = s.word a := rfl

/-- The sequence with three good addresses and a result that is not a warning (R165). The two reads leave the store, so
the word of every address is the old one or the result. -/
theorem storesResult_of_alu {op : AluOp} {s : State} {x y d r : Word} (h : StateInv s) (hx : s.validAddress x)
    (hy : s.validAddress y) (hd : s.validAddress d)
    (hr : alu op (s.word (addressOf x)) (s.word (addressOf y)) = ⟨r, false⟩) :
    ∃ t, exec (arithInstr op x y d) s = .next t ∧ StoresResult x y d r s t := by
  have hreads : StateInv ((s.afterRead x).afterRead y) := (h.afterRead hx).afterRead hy
  have hd' : ((s.afterRead x).afterRead y).validAddress d := hd
  refine ⟨advance ((setAc r ((s.afterRead x).afterRead y)).afterWrite d r), ?exec, ?stores⟩
  case exec => rw [exec_arithInstr, arith_of_goodSources op h hx hy, hr, finishArith_of_valid hd' rfl]
  case stores =>
    exact {
      ac := by simp
      pc := by simp
      word := fun a => by simp [(hreads.setAc r).word_afterWrite]
      mem := rfl
      r1 := by simp
      r2 := by simp
      control := by constructor <;> simp }

/-- Settles O14: the alu's sum is that of the words. -/
theorem addStoresTheSum : Obligations.AddStoresTheSum :=
  fun _ _ _ _ h hx hy hd => storesResult_of_alu (op := .add) h hx hy hd (alu_add _ _)

/-- Settles O15: the alu's difference is that of the words. -/
theorem subStoresTheDifference : Obligations.SubStoresTheDifference :=
  fun _ _ _ _ h hx hy hd => storesResult_of_alu (op := .sub) h hx hy hd (alu_sub _ _)

/-- Settles O16: the alu's product is that of the words. -/
theorem mulStoresTheProduct : Obligations.MulStoresTheProduct :=
  fun _ _ _ _ h hx hy hd => storesResult_of_alu (op := .mul) h hx hy hd (alu_mul _ _)

/-- Settles O17: a divisor that is not zero sets no `divz`, and the narrowed quotient wraps by itself. -/
theorem divStoresTheQuotient : Obligations.DivStoresTheQuotient := by
  intro s x y d h hx hy hd hne
  rw [w32_tdiv]
  exact storesResult_of_alu (op := .div) h hx hy hd (alu_div_of_ne_zero _ hne)

/-! ### The ends that stop -/

theorem SameButHidden.refl (s : State) : SameButHidden s s := by constructor <;> rfl

theorem SameButHidden.of_afterRead (s : State) (a : Word) : SameButHidden s (s.afterRead a) :=
  { SameButHidden.refl s with store := (Hierarchy.read_store ..).symm }

theorem SameButHidden.trans {s t u : State} (h : SameButHidden s t) (g : SameButHidden t u) : SameButHidden s u where
  cfg := h.cfg.trans g.cfg
  program := h.program.trans g.program
  progLen := h.progLen.trans g.progLen
  pc := h.pc.trans g.pc
  ir := h.ir.trans g.ir
  ac := h.ac.trans g.ac
  r1 := h.r1.trans g.r1
  r2 := h.r2.trans g.r2
  fsm := h.fsm.trans g.fsm
  divz := h.divz.trans g.divz
  divzCount := h.divzCount.trans g.divzCount
  fault := h.fault.trans g.fault
  events := h.events.trans g.events
  store := h.store.trans g.store

/-- A fault entry, from a state that accesses have reached from `s` with AC written (R205, R206). -/
theorem stopsOutOfBounds_raise {s t : State} {ac : Word} (h : SameButHidden (setAc ac s) t) (info : Word) :
    StopsOutOfBounds info ac s (raise .outOfBounds info t) where
  fault := by simp [← h.pc]
  fsm := rfl
  events := by simp [← h.events]
  pc := h.pc.symm
  ir := h.ir.symm
  ac := h.ac.symm
  r1 := h.r1.symm
  r2 := h.r2.symm
  divz := h.divz.symm
  divzCount := h.divzCount.symm
  cfg := h.cfg.symm
  program := h.program.symm
  progLen := h.progLen.symm
  store := h.store.symm

/-- Settles O20: each stop comes after the reads of the good sources before it, which leave all but the hidden state;
AC is written after both. -/
theorem arithmeticStopsAtTheFirstBadAddress : Obligations.ArithmeticStopsAtTheFirstBadAddress := by
  intro op s x y d
  simp only [exec_arithInstr]
  refine ⟨fun hx => ⟨_, rfl, ?first⟩, fun hx hy => ⟨_, rfl, ?second⟩, fun h hx hy hd hne => ⟨_, rfl, ?destination⟩⟩
  case first =>
    rw [arith_of_badFirst op hx]
    exact stopsOutOfBounds_raise (.refl s) x
  case second =>
    rw [arith_of_badSecond op hx hy]
    exact stopsOutOfBounds_raise (.of_afterRead s x) y
  case destination =>
    have hd' : ¬ ((s.afterRead x).afterRead y).validAddress d := hd
    have hreads := (SameButHidden.of_afterRead s x).trans (.of_afterRead (s.afterRead x) y)
    rw [arith_of_goodSources op h hx hy, finishArith_of_invalid hd' (alu_divz_eq_false _ hne)]
    exact stopsOutOfBounds_raise (hreads.setAc _) d

end Sys2Proof.Machine

/-! The stall of a DIV with a zero divisor (41_arithmetic.md rule R170; 70_reset_and_hazards.md rule R236). -/

namespace Sys2Proof.Machine

/-! ### The first step of a run, and what a read counts -/

theorem core_run_of_step {s t : State} (hstep : step s = .next t) (k : Nat) :
    Host.Core.run core (k + 1) s = Host.Core.run core k t := by
  have hcore : core.step s = .next t := hstep
  simp only [Host.Core.run, hcore]

/-- A read counts one access, whichever level holds the block (R79). -/
@[simp] theorem Hierarchy.read_totalAccesses (c : Config) (a : Nat) (h : Hierarchy) :
    (h.read c a).2.stats.totalAccesses = h.stats.totalAccesses + 1 := by
  obtain ⟨hstats, -⟩ := readCountsByTheLevelThatHits c h a
  exact congrArg Statistics.totalAccesses hstats

/-! ### The state of a stall -/

/-- RUN at a DIV whose sources are good and whose divisor is zero. -/
structure DivStall (w : InstrWord) (x y d : Word) (s : State) : Prop where
  inv : StateInv s
  running : s.fsm = .run
  inBounds : pcInBounds s = true
  fetched : fetch s = some w
  decoded : decode w = .ok (.div x y d)
  dividend : s.validAddress x
  divisor : s.validAddress y
  zero : s.word (addressOf y) = 0

/-- What a step of the stall leaves: IR fetched again, both sources read, AC cleared and the warning recorded (R170). -/
def State.afterDivByZero (w : InstrWord) (x y : Word) (s : State) : State :=
  warnDivisionByZero (setAc 0 (((setIr (opcodeField w) s).afterRead x).afterRead y))

/-! #### What that step does to each field a stall speaks of -/

section afterDivByZero

variable (w : InstrWord) (x y : Word) (s : State)

@[simp] theorem State.afterDivByZero_cfg : (s.afterDivByZero w x y).cfg = s.cfg := by simp [afterDivByZero]
@[simp] theorem State.afterDivByZero_program : (s.afterDivByZero w x y).program = s.program := by simp [afterDivByZero]
@[simp] theorem State.afterDivByZero_progLen : (s.afterDivByZero w x y).progLen = s.progLen := by simp [afterDivByZero]
@[simp] theorem State.afterDivByZero_pc : (s.afterDivByZero w x y).pc = s.pc := by simp [afterDivByZero]
@[simp] theorem State.afterDivByZero_ac : (s.afterDivByZero w x y).ac = 0 := by simp [afterDivByZero]
@[simp] theorem State.afterDivByZero_fsm : (s.afterDivByZero w x y).fsm = s.fsm := by simp [afterDivByZero]
@[simp] theorem State.afterDivByZero_divz : (s.afterDivByZero w x y).divz = true := by simp [afterDivByZero]
@[simp] theorem State.afterDivByZero_divzCount : (s.afterDivByZero w x y).divzCount = s.divzCount + 1 := by
  simp [afterDivByZero]
@[simp] theorem State.afterDivByZero_store : (s.afterDivByZero w x y).mem.store = s.mem.store := by
  simp [afterDivByZero]
@[simp] theorem State.afterDivByZero_totalAccesses :
    (s.afterDivByZero w x y).mem.stats.totalAccesses = s.mem.stats.totalAccesses + 2 := by
  simp [afterDivByZero, BitVec.add_assoc]

end afterDivByZero

/-! #### The step of a stall -/

theorem exec_div_of_zero {s : State} (h : StateInv s) {x y : Word} (hx : s.validAddress x) (hy : s.validAddress y)
    (hz : s.word (addressOf y) = 0) (d : Word) :
    exec (.div x y d) s = .next (warnDivisionByZero (setAc 0 ((s.afterRead x).afterRead y))) := by
  have harith := arith_of_goodSources .div h hx hy d
  rw [hz, alu_div_zero] at harith
  exact congrArg Host.Outcome.next harith

theorem DivStall.step_eq {w : InstrWord} {x y d : Word} {s : State} (h : DivStall w x y d s) :
    step s = .next (s.afterDivByZero w x y) := by
  calc step s = stepInRun s := step_of_run h.running
    _ = runWord w s := stepInRun_of_fetch h.inBounds h.fetched
    _ = exec (.div x y d) (setIr (opcodeField w) s) := runWord_of_decode h.decoded s
    _ = _ := exec_div_of_zero (h.inv.setIr (opcodeField w)) h.dividend h.divisor h.zero d

/-- The step changes nothing that a stall depends on: neither FSM, PC and program nor the store. -/
theorem DivStall.afterDivByZero {w : InstrWord} {x y d : Word} {s : State} (h : DivStall w x y d s) :
    DivStall w x y d (s.afterDivByZero w x y) where
  inv := ((((h.inv.setIr (opcodeField w)).afterRead h.dividend).afterRead h.divisor).setAc 0).warnDivisionByZero
  running := by simp [h.running]
  inBounds := by simpa [pcInBounds] using h.inBounds
  fetched := by simpa [fetch] using h.fetched
  decoded := h.decoded
  dividend := by simpa [State.validAddress] using h.dividend
  divisor := by simpa [State.validAddress] using h.divisor
  zero := by simpa [State.word] using h.zero

/-- A run of `k` steps of the stall takes that step `k` times. -/
theorem DivStall.run_eq {w : InstrWord} {x y d : Word} {s : State} (h : DivStall w x y d s) (k : Nat) :
    Host.Core.run core k s = .next ((State.afterDivByZero w x y)^[k] s) := by
  induction k generalizing s with
  | zero => rfl
  | succ k ih => rw [core_run_of_step h.step_eq, ih h.afterDivByZero, Function.iterate_succ_apply]

/-- Settles O19: the run is an iteration of the stall's step, and what one such step counts is counted `k` times. -/
theorem divByZeroStallNeverEnds : Obligations.DivByZeroStallNeverEnds := by
  intro s w x y d hs hrun hb hw hd hx hy hz k
  have hstall : DivStall w x y d s := ⟨hs, hrun, hb, hw, hd, hx, hy, hz⟩
  refine ⟨(State.afterDivByZero w x y)^[k] s, hstall.run_eq k, ?_⟩
  induction k with
  | zero => simp [hrun]
  | succ k ih =>
    obtain ⟨hfsm, hpc, -, hstore, hwarnings, haccesses⟩ := ih
    simp [Function.iterate_succ_apply', hfsm, hpc, hstore, hwarnings, haccesses, BitVec.add_assoc, BitVec.ofNat_add,
      Nat.mul_add]

end Sys2Proof.Machine

/-! Where the three copies stop, and the copy of a literal, which makes no access (42_data_movement.md rules R180 to R183;
60_exceptions.md rules R200, R201, R204, R205). -/

namespace Sys2Proof.Machine

/-! ### The selector check -/

theorem selectReg_of_good {sel : Word} (h : s32 sel = 1 ∨ s32 sel = 2) : ∃ r, selectReg sel = some r := by
  rcases h with h1 | h2
  · exact ⟨.r1, selectReg_of_one h1⟩
  · exact ⟨.r2, selectReg_of_two h2⟩

theorem selectReg_of_bad {sel : Word} (h1 : s32 sel ≠ 1) (h2 : s32 sel ≠ 2) : selectReg sel = none := by
  simp [selectReg, h1, h2]

theorem withRegister_of_selected {sel : Word} {r : Reg} (hr : selectReg sel = some r) (go : Reg → State → State)
    (s : State) : withRegister sel go s = go r s := by
  simp [withRegister, hr]

/-- A fault entry is the state that the statements write out, with the code of R200 (R205). -/
theorem raise_eq_stoppedBy (e : Cause) (info : Word) (s : State) : raise e info s = s.stoppedBy e e.code info := rfl

/-- A selector that names no register stops the block, whatever the copy was to do with the register (R183, R204). -/
theorem withRegister_of_bad {sel : Word} (h1 : s32 sel ≠ 1) (h2 : s32 sel ≠ 2) (go : Reg → State → State) (s : State) :
    withRegister sel go s = s.stoppedBy .illegalRegisterSelector 4 sel := by
  simp [withRegister, selectReg_of_bad h1 h2, raise_eq_stoppedBy]

/-- Settles O24: all three copies make the one selector check before anything else. -/
theorem copiesStopAtABadSelector : Obligations.CopiesStopAtABadSelector := by
  intro s sel a h1 h2
  have hstop (go : Reg → State → State) : Host.Outcome.next (withRegister sel go s) =
      (.next (s.stoppedBy .illegalRegisterSelector 4 sel) : Host.Outcome State Fault Refusal) :=
    congrArg Host.Outcome.next (withRegister_of_bad h1 h2 go s)
  exact ⟨hstop _, hstop _, hstop _⟩

/-! ### The copy of a literal -/

theorem decode_of_opcode_seven {w : InstrWord} (h : u32 (opcodeField w) = 7) :
    decode w = .ok (.copyImmediateToReg (op1Field w) (op2Field w)) :=
  decode_of_opcode (i := .copyImmediateToReg 0 0) (BitVec.eq_of_toNat_eq h)

theorem exec_copyImmediateToReg_of_selected {sel : Word} {r : Reg} (hr : selectReg sel = some r) (imm : Word)
    (s : State) : exec (.copyImmediateToReg sel imm) s = .next (advance (setReg r imm s)) :=
  congrArg Host.Outcome.next (withRegister_of_selected hr _ s)

/-- Settles O21: the two good selectors name R1 and R2, and any other stops this copy like the other two. -/
theorem copyImmediateLoadsTheLiteral : Obligations.CopyImmediateLoadsTheLiteral := by
  refine ⟨fun _ => decode_of_opcode_seven, fun s sel imm => ⟨fun h1 => ?r1, fun h2 => ?r2, fun h1 h2 => ?stop⟩⟩
  case r1 => exact exec_copyImmediateToReg_of_selected (selectReg_of_one h1) imm s
  case r2 => exact exec_copyImmediateToReg_of_selected (selectReg_of_two h2) imm s
  case stop =>
    obtain ⟨-, -, hstop⟩ := copiesStopAtABadSelector s sel imm h1 h2
    exact hstop

/-! ### The address check, after a good selector -/

theorem exec_copyRegToMem_of_invalid {s : State} {sel d : Word} {r : Reg} (hr : selectReg sel = some r)
    (hd : ¬ s.validAddress d) : exec (.copyRegToMem sel d) s = .next (raise .outOfBounds d s) := by
  simp [exec, execCopyRegToMem, withRegister_of_selected hr, memWrite_eq_none.mpr hd]

theorem exec_copyMemToReg_of_invalid {s : State} {sel a : Word} {r : Reg} (hr : selectReg sel = some r)
    (ha : ¬ s.validAddress a) : exec (.copyMemToReg sel a) s = .next (raise .outOfBounds a s) := by
  simp [exec, execCopyMemToReg, withRegister_of_selected hr, memRead_eq_none.mpr ha]

/-- Settles O25: the failed access of either copy leaves all as it was, so the stop is a fault entry from the old
state. -/
theorem memoryCopiesStopAtABadAddress : Obligations.MemoryCopiesStopAtABadAddress := by
  intro s sel a hsel ha
  obtain ⟨r, hr⟩ := selectReg_of_good hsel
  have hstop : StopsOutOfBounds a s.ac s (raise .outOfBounds a s) := stopsOutOfBounds_raise (.refl s) a
  exact ⟨⟨_, exec_copyRegToMem_of_invalid hr ha, hstop⟩, ⟨_, exec_copyMemToReg_of_invalid hr ha, hstop⟩⟩

end Sys2Proof.Machine

/-! The five jumps: which words decode to them, and where each leaves PC (43_control_transfer.md rules R190 to R196).
They differ only in the test that they make on AC. -/

namespace Sys2Proof.Machine

/-- `decode_of_opcode` for an opcode given as a number, as R122 numbers them. -/
theorem decode_of_opcodeNumber {w : InstrWord} {i : Instr} (h : u32 (opcodeField w) = u32 (opcodeOf i)) :
    decode w = .ok (i.withOperandsOf w) :=
  decode_of_opcode (BitVec.eq_of_toNat_eq h)

/-! ### The tests on AC (R190) -/

theorem acZero_iff {ac : Word} : acZero ac = true ↔ s32 ac = 0 := beq_iff_eq

theorem acNonzero_iff {ac : Word} : acNonzero ac = true ↔ s32 ac ≠ 0 := bne_iff_ne

theorem acPositive_iff {ac : Word} : acPositive ac = true ↔ 0 < s32 ac := decide_eq_true_iff

theorem acNegative_iff {ac : Word} : acNegative ac = true ↔ s32 ac < 0 := decide_eq_true_iff

/-! ### The jumps -/

/-- A jump whose test decides `P` goes to the target when `P` holds and to the next entry otherwise; only PC changes
(R150, R191). -/
theorem next_jumpWhen_of_iff {c : Bool} {P : Prop} [Decidable P] (h : c = true ↔ P) (p : Word) (s : State) :
    (.next (jumpWhen c p s) : Host.Outcome State Fault Refusal) =
      .next { s with pc := if P then p else s.pc + 1 } := by
  rw [jumpWhen_eq, setPc, if_congr h rfl rfl]

/-- Settles O26: the redirect's `op1 - 1` and the advance that follows it cancel, at every target. -/
theorem jumpGoesToItsTarget : Obligations.JumpGoesToItsTarget :=
  ⟨fun _ hop => decode_of_opcodeNumber (i := .jump 0) hop,
    fun s p => congrArg Host.Outcome.next (advance_redirect p s)⟩

/-- Settles O27: the test is AC = 0. -/
theorem jumpIfZeroFollowsAc : Obligations.JumpIfZeroFollowsAc :=
  ⟨fun _ hop => decode_of_opcodeNumber (i := .jumpIfZero 0) hop,
    fun s p => next_jumpWhen_of_iff acZero_iff p s⟩

/-- Settles O28: the test is AC ≠ 0, so the sign of AC plays no part. -/
theorem jumpIfNonzeroFollowsAc : Obligations.JumpIfNonzeroFollowsAc :=
  ⟨fun _ hop => decode_of_opcodeNumber (i := .jumpIfNonzero 0) hop,
    fun s p => next_jumpWhen_of_iff acNonzero_iff p s⟩

/-- Settles O29: the test is the signed AC > 0. -/
theorem jumpIfGtFollowsAc : Obligations.JumpIfGtFollowsAc :=
  ⟨fun _ hop => decode_of_opcodeNumber (i := .jumpIfGt 0) hop,
    fun s p => next_jumpWhen_of_iff acPositive_iff p s⟩

/-- Settles O30: the test is the signed AC < 0. -/
theorem jumpIfLtFollowsAc : Obligations.JumpIfLtFollowsAc :=
  ⟨fun _ hop => decode_of_opcodeNumber (i := .jumpIfLt 0) hop,
    fun s p => next_jumpWhen_of_iff acNegative_iff p s⟩

end Sys2Proof.Machine

/-! The exceptions along a step (60_exceptions.md rules R202, R203, R205, R207, R210): the fault at decode, the division
warning, and the one event that a step may emit. -/

namespace Sys2Proof.Machine

/-! ### The illegal opcode -/

/-- An opcode past the table is a fault entry with IR written by the fetch, the opcode as its info (R143, R203). -/
theorem runWord_of_illegalOpcode {w : InstrWord} (h : 13 ≤ u32 (opcodeField w)) (s : State) :
    runWord w s = .next (raise .illegalOpcode (opcodeField w) (setIr (opcodeField w) s)) := by
  simp [runWord, decode_of_opcode_ge h]

/-- Settles O8: the bound check passes, the fetched word does not decode, and code 3 is IllegalOpcode's. -/
theorem stepStopsAtAnIllegalOpcode : Obligations.StepStopsAtAnIllegalOpcode := by
  intro s w hrun hlow hhigh hw hop
  have hb : pcInBounds s = true := pcInBounds_iff.mpr ⟨hlow, hhigh⟩
  calc step s = stepInRun s := step_of_run hrun
    _ = runWord w s := stepInRun_of_fetch hb hw
    _ = .next (raise .illegalOpcode (opcodeField w) (setIr (opcodeField w) s)) := runWord_of_illegalOpcode hop s
    _ = _ := congrArg Host.Outcome.next (raise_eq_stoppedBy .illegalOpcode (opcodeField w) _)

/-! ### The division warning -/

/-- Settles O18: the two reads, then AC and the warning; the destination plays no part, so nothing is asked of it. -/
theorem divByZeroWarnsAndHolds : Obligations.DivByZeroWarnsAndHolds :=
  fun _ _ _ d h hx hy hz => exec_div_of_zero h hx hy hz d

/-! ### The events -/

/-- Each way an instruction leaves the FSM has its own event, and running on has one only at a warning (R202, R210). -/
theorem InstrEffect.events_cases {i : Instr} {s t : State} (he : InstrEffect s i t) :
    t.events = s.events ∨ ∃ e, t.events = s.events ++ [e] := by
  rcases he.fsm_cases with ⟨-, -, hnone | ⟨e, pc, hwarn⟩⟩ | ⟨-, -, hdone, -⟩ | ⟨-, -, ⟨e, info, hfault⟩, -⟩
  · exact .inl hnone
  · exact .inr ⟨.warn e pc, hwarn⟩
  · exact .inr ⟨.done, hdone⟩
  · exact .inr ⟨.fault e info, hfault⟩

/-- Settles O45: the bound check and the illegal opcode emit their own event, and the fetch before an instruction emits
none. -/
theorem stepEmitsAtMostOneEvent : Obligations.StepEmitsAtMostOneEvent := by
  intro s t h
  obtain ⟨-, ⟨-, rfl⟩ | ⟨w, i, -, -, -, hexec⟩ | ⟨w, op, -, -, -, rfl⟩⟩ := step_cases h
  · exact .inr ⟨.bound, rfl⟩
  · exact (exec_effect hexec).events_cases
  · exact .inr ⟨.fault .illegalOpcode op, rfl⟩

end Sys2Proof.Machine

/-! The state after reset, and the host's RUN_START (70_reset_and_hazards.md rules R230, R231): a reset is a power-on reset
with the reference configuration, and RUN_START is judged by the FSM, then by the bound, then by the program. -/

namespace Sys2Proof.Machine

/-! ### The state after reset -/

/-- The reference configuration satisfies the conditions of R7. -/
theorem Config.reference_wellFormed : Config.reference.wellFormed = true := by decide

/-- Settles O49: the state after reset is a power-on reset of the reference configuration with a zero-initialised store. -/
theorem resetMeetsTheBlockInvariant : Obligations.ResetMeetsTheBlockInvariant :=
  ⟨BlockInv.poweredOn Config.reference_wellFormed (StoreInv.nil Config.reference),
    AccessCountersAgree.poweredOn Config.reference []⟩

/-! ### RUN_START -/

theorem progLenFits_iff {n : Nat} : progLenFits n = true ↔ n ≤ 2 ^ 31 - 1 := decide_eq_true_iff

theorem FsmState.acceptsRunStart_of_stopped {f : FsmState} (h : f = .idle ∨ f = .halted ∨ f = .bound) :
    f.acceptsRunStart = true := by
  rcases h with rfl | rfl | rfl <;> rfl

theorem FsmState.not_acceptsRunStart_of_run_or_faulted {f : FsmState} (h : f = .run ∨ f = .faulted) :
    f.acceptsRunStart = false := by
  rcases h with rfl | rfl <;> rfl

theorem runStart_of_accepted {p : List InstrWord} {n : Nat} {s : State} (hfsm : s.fsm.acceptsRunStart = true)
    (hn : progLenFits n = true) (hlen : n ≤ p.length) : runStart p n s = .next (startRun p n s) := by
  simp [runStart, hfsm, hn, Nat.not_lt.mpr hlen]

/-- The bound is judged before the program's length, so nothing is asked of the program (R7). -/
theorem runStart_of_progLen_outOfRange {n : Nat} {s : State} (hfsm : s.fsm.acceptsRunStart = true)
    (hn : progLenFits n = false) (p : List InstrWord) : runStart p n s = .refused .progLenOutOfRange := by
  simp [runStart, hfsm, hn]

/-- The FSM is judged first, so nothing is asked of the bound and the program (R217, R231). -/
theorem runStart_of_not_acceptsRunStart {s : State} (hfsm : s.fsm.acceptsRunStart = false) (p : List InstrWord)
    (n : Nat) : runStart p n s = .refused (.runStartNotAllowed s.fsm) := by
  simp [runStart, hfsm]

/-- Settles O53: clause by clause along the order in which RUN_START judges; what an accepted one changes is `startRun`. -/
theorem runStartClearsTheRegistersOnly : Obligations.RunStartClearsTheRegistersOnly := by
  intro p n s
  refine ⟨fun hstopped hn hlen => ?accepted, fun hstopped hn => ?boundRefused, fun hfsm => ?stateRefused⟩
  case accepted =>
    exact runStart_of_accepted (FsmState.acceptsRunStart_of_stopped hstopped) (progLenFits_iff.mpr hn) hlen
  case boundRefused =>
    have hfit : progLenFits n = false := Bool.eq_false_iff.mpr fun h => Nat.not_le.mpr hn (progLenFits_iff.mp h)
    exact runStart_of_progLen_outOfRange (FsmState.acceptsRunStart_of_stopped hstopped) hfit p
  case stateRefused =>
    exact runStart_of_not_acceptsRunStart (FsmState.not_acceptsRunStart_of_run_or_faulted hfsm) p n

end Sys2Proof.Machine
